-- ==== Sys2Proof/Word.lean ====
section
/-! DEFINITION. The word types of the FCB framer block (00_scope.md R8: a byte is 8 bits, a half-word 16, a word 32; 30_encoding.md R70: a command is one 48-bit word). -/

namespace Sys2Proof

/-- A byte (R8). -/
abbrev Byte := BitVec 8

/-- A half-word (R8): the width of the CRC register. -/
abbrev Half := BitVec 16

/-- A word (R8): the width of a response's `value` and of the command's `D` field. -/
abbrev Word := BitVec 32

/-- One command word on the command port (R70). -/
abbrev CommandWord := BitVec 48

end Sys2Proof
end

