-- ==== Sys2Proof/Syntax.lean ====
section
/-! DEFINITION. The commands of the block: one constructor for each of the 18 rows of the opcode table (30_encoding.md R70 to R73), and the four fields of a raw command word. Every operand has exactly the width of its field (R74), so every term of `Instr` is a command the block takes. -/

namespace Sys2Proof

/-- The 18 commands (R71 to R73). Operands: `b` a received byte, `n` a payload length, `h` a packed header,
`o` a payload offset, `v` a store value, `a` a frame-buffer address. -/
inductive Instr where
  /-- INIT (R121). -/
  | init
  /-- RXB `b` (R122). -/
  | rxb (b : Byte)
  /-- ENC `n` (R150). -/
  | enc (n : Byte)
  /-- HDR.RD (R171). -/
  | hdrRd
  /-- HDR.WR `h`, with `h = D[23:0]` (R175). -/
  | hdrWr (h : BitVec 24)
  /-- LD.U8 `o` (R192). -/
  | ldU8 (o : Byte)
  /-- LD.I8 `o` (R193). -/
  | ldI8 (o : Byte)
  /-- LD.U16 `o` (R194). -/
  | ldU16 (o : Byte)
  /-- LD.I16 `o` (R195). -/
  | ldI16 (o : Byte)
  /-- LD.U32 `o` (R196). -/
  | ldU32 (o : Byte)
  /-- LD.I32 `o` (R197). -/
  | ldI32 (o : Byte)
  /-- ST.U8 `o, v` (R198). -/
  | stU8 (o : Byte) (v : Word)
  /-- ST.I8 `o, v` (R199). -/
  | stI8 (o : Byte) (v : Word)
  /-- ST.U16 `o, v` (R200). -/
  | stU16 (o : Byte) (v : Word)
  /-- ST.I16 `o, v` (R201). -/
  | stI16 (o : Byte) (v : Word)
  /-- ST.U32 `o, v` (R202). -/
  | stU32 (o : Byte) (v : Word)
  /-- ST.I32 `o, v` (R203). -/
  | stI32 (o : Byte) (v : Word)
  /-- FRD `a` (R158). -/
  | frd (a : Byte)
deriving DecidableEq, Repr

/-- The four fields of a command word (R70). -/
@[ext] structure CommandFields where
  /-- `OP`, bits 47:44. -/
  op : BitVec 4
  /-- `FN`, bits 43:40. -/
  fn : BitVec 4
  /-- `A`, bits 39:32. -/
  a : Byte
  /-- `D`, bits 31:0. -/
  d : Word
deriving DecidableEq, Repr

end Sys2Proof
end

