-- ==== Sys2Proof/WellFormed.lean ====
section
/-! DEFINITION. When the four fields of a command word are a legal command: 30_encoding.md R73 and R76, field by field. This is written from those two rules and not from the opcode table, which `Decode.lean` follows; that the two agree is an obligation. A term of `Instr` needs no check of its own: its operands have the widths of their fields. -/

namespace Sys2Proof

/-- `OP` 0x8 to 0xF is reserved (R71, R76). -/
def CommandFields.opLegal (f : CommandFields) : Bool := f.op.toNat < 8

/-- LD and ST take `FN` 0 to 5; every other operation takes `FN` 0 (R72, R73, R76). -/
def CommandFields.fnLegal (f : CommandFields) : Bool :=
  if f.op = 5#4 ∨ f.op = 6#4 then f.fn.toNat < 6 else f.fn = 0#4

/-- INIT, HDR.RD and HDR.WR take no byte operand: `A` must be 0 (R73, R76). -/
def CommandFields.aLegal (f : CommandFields) : Bool :=
  if f.op = 0#4 ∨ f.op = 3#4 ∨ f.op = 4#4 then f.a = 0#8 else true

/-- ST uses all of `D`, HDR.WR only `D[23:0]`, and every other operation none of it (R73, R76). -/
def CommandFields.dLegal (f : CommandFields) : Bool :=
  if f.op = 6#4 then true else if f.op = 4#4 then f.d.extractLsb' 24 8 = 0#8 else f.d = 0#32

/-- The fields are those of a legal command (R76: otherwise the word is illegal). -/
def CommandFields.wellFormed (f : CommandFields) : Bool :=
  f.opLegal && f.fnLegal && f.aLegal && f.dLegal

end Sys2Proof
end

