-- ==== Sys2Proof/Decode.lean ====
section
/-! DEFINITION. From a command word to a command and back (30_encoding.md R70 to R78). The decoder follows R75: find the one row of the opcode table whose masked bits match. A word that matches no row is no command (`none`); the step answers it ILLEGAL_CMD. -/

namespace Sys2Proof

/-- The four fields of a command word (R70). -/
def fieldsOf (c : CommandWord) : CommandFields :=
  ⟨c.extractLsb' 44 4, c.extractLsb' 40 4, c.extractLsb' 32 8, c.extractLsb' 0 32⟩

/-- The command word with the given fields (R70). -/
def wordOf (f : CommandFields) : CommandWord :=
  f.op ++ f.fn ++ f.a ++ f.d

/-- One row of the opcode table: the bits it fixes and the command it stands for, given the word's `A` and `D` (R75). -/
structure Row where
  /-- The bits the row fixes. -/
  mask : CommandWord
  /-- The value of those bits. -/
  pattern : CommandWord
  /-- The row's command with the operands `A` and `D`. -/
  build : Byte → Word → Instr

/-- `spec/opcode_table.json`, row by row: its `mask`, its `match` and its command. -/
def opcodeTable : List Row :=
  [⟨0xFFFFFFFFFFFF#48, 0x000000000000#48, fun _ _ => .init⟩,
   ⟨0xFF00FFFFFFFF#48, 0x100000000000#48, fun a _ => .rxb a⟩,
   ⟨0xFF00FFFFFFFF#48, 0x200000000000#48, fun a _ => .enc a⟩,
   ⟨0xFFFFFFFFFFFF#48, 0x300000000000#48, fun _ _ => .hdrRd⟩,
   ⟨0xFFFFFF000000#48, 0x400000000000#48, fun _ d => .hdrWr (d.setWidth 24)⟩] ++
  [⟨0xFF00FFFFFFFF#48, 0x500000000000#48, fun a _ => .ldU8 a⟩,
   ⟨0xFF00FFFFFFFF#48, 0x510000000000#48, fun a _ => .ldI8 a⟩,
   ⟨0xFF00FFFFFFFF#48, 0x520000000000#48, fun a _ => .ldU16 a⟩,
   ⟨0xFF00FFFFFFFF#48, 0x530000000000#48, fun a _ => .ldI16 a⟩,
   ⟨0xFF00FFFFFFFF#48, 0x540000000000#48, fun a _ => .ldU32 a⟩,
   ⟨0xFF00FFFFFFFF#48, 0x550000000000#48, fun a _ => .ldI32 a⟩] ++
  [⟨0xFF0000000000#48, 0x600000000000#48, fun a d => .stU8 a d⟩,
   ⟨0xFF0000000000#48, 0x610000000000#48, fun a d => .stI8 a d⟩,
   ⟨0xFF0000000000#48, 0x620000000000#48, fun a d => .stU16 a d⟩,
   ⟨0xFF0000000000#48, 0x630000000000#48, fun a d => .stI16 a d⟩,
   ⟨0xFF0000000000#48, 0x640000000000#48, fun a d => .stU32 a d⟩,
   ⟨0xFF0000000000#48, 0x650000000000#48, fun a d => .stI32 a d⟩] ++
  [⟨0xFF00FFFFFFFF#48, 0x700000000000#48, fun a _ => .frd a⟩]

/-- A row matches a word: `(c & mask) == match` (R75). -/
def rowMatches (r : Row) (c : CommandWord) : Bool := c &&& r.mask == r.pattern

/-- The command a word stands for, or none where the word is illegal (R75, R76). -/
def decode (c : CommandWord) : Option Instr :=
  (opcodeTable.find? (rowMatches · c)).map fun r => r.build (fieldsOf c).a (fieldsOf c).d

/-- The fields of each command's word, written from R71 to R73 and R78. -/
def encodeFields : Instr → CommandFields
  | .init => ⟨0x0#4, 0x0#4, 0#8, 0#32⟩
  | .rxb b => ⟨0x1#4, 0x0#4, b, 0#32⟩
  | .enc n => ⟨0x2#4, 0x0#4, n, 0#32⟩
  | .hdrRd => ⟨0x3#4, 0x0#4, 0#8, 0#32⟩
  | .hdrWr h => ⟨0x4#4, 0x0#4, 0#8, h.setWidth 32⟩
  | .ldU8 o => ⟨0x5#4, 0x0#4, o, 0#32⟩
  | .ldI8 o => ⟨0x5#4, 0x1#4, o, 0#32⟩
  | .ldU16 o => ⟨0x5#4, 0x2#4, o, 0#32⟩
  | .ldI16 o => ⟨0x5#4, 0x3#4, o, 0#32⟩
  | .ldU32 o => ⟨0x5#4, 0x4#4, o, 0#32⟩
  | .ldI32 o => ⟨0x5#4, 0x5#4, o, 0#32⟩
  | .stU8 o v => ⟨0x6#4, 0x0#4, o, v⟩
  | .stI8 o v => ⟨0x6#4, 0x1#4, o, v⟩
  | .stU16 o v => ⟨0x6#4, 0x2#4, o, v⟩
  | .stI16 o v => ⟨0x6#4, 0x3#4, o, v⟩
  | .stU32 o v => ⟨0x6#4, 0x4#4, o, v⟩
  | .stI32 o v => ⟨0x6#4, 0x5#4, o, v⟩
  | .frd a => ⟨0x7#4, 0x0#4, a, 0#32⟩

/-- The command word of a command (R78). -/
def encode (i : Instr) : CommandWord := wordOf (encodeFields i)

/-- The command word whose low `nbits` bits are those of `w`, the bits above them 0. A command is one word, so bit 0 of the
table's numbering is bit 0 of the word (R70). -/
def commandOfTableWord (nbits w : Nat) : CommandWord := BitVec.ofNat 48 (w % 2 ^ nbits)

/-- What the decoder reads from an instruction whose bits, numbered as the opcode table numbers them, are `w`. -/
def decodeTableWord (nbits w : Nat) : Option Instr := decode (commandOfTableWord nbits w)

end Sys2Proof
end

