-- ==== Sys2Proof/Config.lean ====
section
/-! DEFINITION. The build-time constants of the block (00_scope.md R6, R7) and its two OPEN parameters. No command changes any of them. -/

namespace Sys2Proof.Config

/-- `SYNC1`, the first fixed byte of a frame (R6). -/
@[simp] def sync1 : Byte := 0x5A#8

/-- `SYNC2`, the second fixed byte of a frame (R6). -/
@[simp] def sync2 : Byte := 0x7E#8

/-- `MAXP`, the maximum payload size (R6). -/
@[simp] def maxPayload : Nat := 128

/-- `FR_SIZE`, the number of bytes of the frame buffer (R6, R50). -/
@[simp] def frSize : Nat := 133

/-- `PFX`, the frame-buffer address of payload byte 0 (R6, R51). -/
@[simp] def pfx : Nat := 3

/-- The CRC's initial value (R6, R100). -/
@[simp] def crcInit : Half := 0#16

/-- Bits 14 to 0 of `P_CRC_POLY`, which the spec leaves OPEN (R6, R7, D6). No body: nothing can evaluate it, so every
theorem holds for every value. Log entry 5. -/
opaque crcPolyLow : BitVec 15

/-- `P_CRC_POLY`, the generator in reflected form. Its bit 15 is 1, as R107 requires of a model; the rest is open.
DESIGN CHOICE (log entry 5, safe): the requirement is built into the constant. -/
def crcPoly : Half := 1#1 ++ crcPolyLow

/-- `P_VERSION`, the fixed protocol version, which the spec leaves OPEN (R6, R7, D8). No body. Log entry 6. -/
opaque version : BitVec 2

end Sys2Proof.Config
end

