-- ==== Sys2Proof/Machine/Crc16.lean ====
section
/-! DEFINITION. The CRC-16 validator (40_crc16.md), as a function of the generator: the commands give it `Config.crcPoly`. -/

namespace Sys2Proof.Machine

/-- One shift of the register (R101): right by one, and the generator added where the bit shifted out was 1. -/
def crcShift (poly c : Half) : Half :=
  if c.getLsbD 0 then c >>> 1 ^^^ poly else c >>> 1

/-- `k` shifts of the register. -/
def crcShifts (poly : Half) : Nat → Half → Half
  | 0, c => c
  | k + 1, c => crcShifts poly k (crcShift poly c)

/-- `crc16_upd(c, b)`, the update by one byte (R101). -/
def crc16Upd (poly c : Half) (b : Byte) : Half := crcShifts poly 8 (c ^^^ b.setWidth 16)

/-- `crc16(s)`, the CRC of a byte sequence from the initial value 0 (R100, R102). -/
def crc16 (poly : Half) (bs : List Byte) : Half := bs.foldl (crc16Upd poly) Config.crcInit

/-- The trailer of a frame whose CRC is `t`: the low byte, then the high byte (R103). -/
def crcTrailer (t : Half) : List Byte := [t.extractLsb' 0 8, t.extractLsb' 8 8]

/-- The entry `T[k]` of the table form (R109). -/
def crcTable (poly : Half) (k : Byte) : Half := crc16Upd poly 0#16 k

/-- The update by one byte as one table lookup (R109). -/
def crc16UpdByTable (poly c : Half) (b : Byte) : Half :=
  c >>> 8 ^^^ crcTable poly ((c ^^^ b.setWidth 16).setWidth 8)

end Sys2Proof.Machine
end

