-- ==== Sys2Proof/Machine/State.lean ====
section
/-! DEFINITION. The state of the block as plain data (10_state.md), its response record, the ways a step can stop, and the power-on state. -/

namespace Sys2Proof.Machine

/-- The six decoder states (R21). The codes 6 and 7 of R21 are never reached and have no constructor (R21, D30; log entry 9). -/
inductive DecoderState where
  /-- Waiting for the first sync byte. -/
  | sync1
  /-- Waiting for the second sync byte. -/
  | sync2
  /-- Waiting for the length byte. -/
  | length
  /-- Taking payload bytes. -/
  | data
  /-- Waiting for the CRC's low byte. -/
  | crc1
  /-- Waiting for the CRC's high byte. -/
  | crc2
deriving DecidableEq, Repr

/-- The outcome of a command as its response reports it (R31, R90). -/
inductive Status where
  /-- Operation done. -/
  | ok
  /-- RXB consumed the byte and no frame ended. -/
  | incomplete
  /-- RXB ended a frame whose CRC check passed. -/
  | frameReady
  /-- RXB ended a frame whose CRC check failed. -/
  | checksumError
  /-- ENC refused its length. -/
  | encodeError
  /-- HDR.RD found a version other than `P_VERSION`. -/
  | versionError
  /-- An LD, ST or FRD address is out of range. -/
  | rangeFault
  /-- The command word matches no row of the opcode table. -/
  | illegalCmd
deriving DecidableEq, Repr

/-- The six fields of a message header (R30, R83). -/
structure Header where
  /-- Bits 1:0. -/
  version : BitVec 2
  /-- Bits 6:2. -/
  service : BitVec 5
  /-- Bits 12:7. -/
  method : BitVec 6
  /-- Bits 17:13. -/
  sequence : BitVec 5
  /-- Bits 19:18. -/
  type : BitVec 2
  /-- Bits 23:20. -/
  protocol : BitVec 4
deriving DecidableEq, Repr

/-- The header with every field 0, which every response but a successful HDR.RD's carries (R30). -/
def Header.zero : Header := ⟨0#2, 0#5, 0#6, 0#5, 0#2, 0#4⟩

/-- The reply codes of the `protocol` field that the spec names (R85). The block carries them and does not interpret them. -/
inductive ProtocolCode where
  | ok
  | noService
  | noMethod
  | badSyntax
  | unavailable
deriving DecidableEq, Repr

/-- The response record every command returns (R30). -/
structure Response where
  /-- The outcome code. -/
  status : Status
  /-- The operation's result, 0 where its rule gives none. -/
  value : Word
  /-- The unpacked header, all 0 but in a successful HDR.RD. -/
  hdr : Header
deriving DecidableEq, Repr

/-- The block's state. `state`, `len`, `idx`, `crc` and `fr` are all the architectural state there is (R20). `pending` and
`responses` are the model's own record of the two ports (R28; log entries 1 and 2). -/
structure State where
  /-- `STATE`, the decoder state (R21). -/
  state : DecoderState
  /-- `LEN`, the length of the frame being or last decoded (R22). -/
  len : Byte
  /-- `IDX`, the running payload index (R23). -/
  idx : Byte
  /-- `CRC`, the running CRC (R24). -/
  crc : Half
  /-- `FR`, the frame buffer: its written bytes by rising address; an address with no cell is unwritten (R50, R58). -/
  fr : List Host.Cell
  /-- The command port: words the host has issued and the block has not taken, oldest first (R28). -/
  pending : List CommandWord
  /-- The response port: the records returned so far, oldest first (R28, R260). -/
  responses : List Response
deriving DecidableEq, Repr

/-- Why a run of the model stops. -/
inductive Fault where
  /-- `UNWRITTEN_READ(a)`: ENC, HDR.RD, LD.* or FRD must read the byte at frame-buffer address `a`, which no operation has
  written since power-on (R58, R216). Safe: a real block returns unknown content and goes on. Log entry 4. -/
  | unwrittenRead (a : Nat)
  /-- RXB in DATA would store at frame-buffer address `a`, which does not exist (R59). DESIGN CHOICE (log entry 7), safe:
  only a state that breaks R25 raises it, and no run from power-on reaches one. -/
  | outsideBuffer (a : Nat)
deriving DecidableEq, Repr

/-- An instruction without a meaning. -/
inductive Refusal where
  /-- An arm of `exec` that has no meaning yet; no arm is left so, and no step answers this. Safe. -/
  | notModelled (mnemonic : String)
deriving DecidableEq, Repr

/-- The power-on state (R32, R33, R240): SYNC1, the three registers 0, every buffer byte unwritten; nothing issued and
nothing answered yet (log entries 1 and 2). -/
def State.reset : State where
  state := .sync1
  len := 0#8
  idx := 0#8
  crc := 0#16
  fr := []
  pending := []
  responses := []

end Sys2Proof.Machine
end

