-- ==== Sys2Proof/Machine/Flags.lean ====
section
/-! DEFINITION. The block has no condition codes (10_state.md R27): what a command finds is the `status` of its response (R31, R90). This file holds the codes and the two tests whose result is a status. -/

namespace Sys2Proof.Machine

/-- The 4-bit code of a status (R90). The codes 8 to 15 are never returned. -/
def Status.code : Status → BitVec 4
  | .ok => 0#4
  | .incomplete => 1#4
  | .frameReady => 2#4
  | .checksumError => 3#4
  | .encodeError => 4#4
  | .versionError => 5#4
  | .rangeFault => 6#4
  | .illegalCmd => 7#4

/-- The 3-bit code of a decoder state (R21). -/
def DecoderState.code : DecoderState → BitVec 3
  | .sync1 => 0#3
  | .sync2 => 1#3
  | .length => 2#3
  | .data => 3#3
  | .crc1 => 4#3
  | .crc2 => 5#3

/-- The CRC gate (R106, R128): the answer to the RXB that ends a frame, from the register after the last trailer byte. -/
def crcGate (crc : Half) (len : Byte) : Response :=
  if crc = 0#16 then ⟨.frameReady, len.setWidth 32, Header.zero⟩ else ⟨.checksumError, 0#32, Header.zero⟩

/-- The version check of HDR.RD (R172): bits 1:0 of the packed header against `P_VERSION`, and nothing else. -/
def versionAccepted (version : BitVec 2) (h : BitVec 24) : Bool := h.extractLsb' 0 2 == version

end Sys2Proof.Machine
end

