-- ==== Sys2Proof/Machine/Operands.lean ====
section
/-! DEFINITION. Operand forms: payload offsets and their range check (20_memory.md R51, 44_buffer_access.md R190, R191), little-endian assembly of bytes (20_memory.md R53, R55), and the header's bit-fields (30_encoding.md R83, 43_header_codec.md R174). -/

namespace Sys2Proof.Machine

/-- The frame-buffer address of payload offset `o`: `PB[o]` is `FR[PFX + o]` (R51). -/
def payloadAddr (o : Byte) : Nat := Config.pfx + o.toNat

/-- The range check common to the accessors, computed without wrap: `o + w ≤ MAXP` (R191). -/
def offsetInRange (o : Byte) (w : Nat) : Bool := decide (o.toNat + w ≤ Config.maxPayload)

/-- ENC's operand check: `n < MAXP` (R150, R151). -/
def lengthEncodable (n : Byte) : Bool := decide (n.toNat < Config.maxPayload)

/-- FRD's operand check: `a < FR_SIZE` (R158). -/
def addressInRange (a : Byte) : Bool := decide (a.toNat < Config.frSize)

/-- The bytes of a value, least significant first: byte `k` is `v[8k+7:8k]` (R53, R55). -/
def leBytes {w : Nat} : Nat → BitVec w → List Byte
  | 0, _ => []
  | n + 1, v => v.setWidth 8 :: leBytes n (v >>> 8)

/-- The value of bytes given least significant first, as `w` bits (R53, R55). -/
def leValue (w : Nat) : List Byte → BitVec w
  | [] => 0#w
  | b :: bs => b.setWidth w ||| leValue w bs <<< 8

/-- A loaded value as 32 bits: sign-extended for the `I` loads, zero-extended for the `U` loads (R72). A value of 32 bits is
itself either way. -/
def extendTo32 (signed : Bool) {w : Nat} (v : BitVec w) : Word :=
  if signed then v.signExtend 32 else v.zeroExtend 32

/-- The header fields of a packed header (R83, R174). -/
def Header.unpack (h : BitVec 24) : Header where
  version := h.extractLsb' 0 2
  service := h.extractLsb' 2 5
  method := h.extractLsb' 7 6
  sequence := h.extractLsb' 13 5
  type := h.extractLsb' 18 2
  protocol := h.extractLsb' 20 4

/-- The packed header with the given fields (R83, R174). -/
def Header.pack (h : Header) : BitVec 24 :=
  h.version.setWidth 24 ||| h.service.setWidth 24 <<< 2 ||| h.method.setWidth 24 <<< 7 |||
    h.sequence.setWidth 24 <<< 13 ||| h.type.setWidth 24 <<< 18 ||| h.protocol.setWidth 24 <<< 20

/-- The value of a named reply code in the `protocol` field (R85). -/
def ProtocolCode.code : ProtocolCode → BitVec 4
  | .ok => 0#4
  | .noService => 1#4
  | .noMethod => 2#4
  | .badSyntax => 3#4
  | .unavailable => 4#4

end Sys2Proof.Machine
end

