-- ==== Sys2Proof/Machine/Ops.lean ====
section
/-! DEFINITION. The named operations over the frame buffer, the decoder registers and the two ports that the commands share. The block has no exceptions to take or to return from (60_exceptions.md R220, R221): an error is a response that changes nothing else, and `raise` is that one operation. -/

namespace Sys2Proof.Machine

/-- What a command answers. -/
abbrev Result := Host.Outcome State Fault Refusal

/-! ### The frame buffer as a list of cells -/

/-- The byte at an address, or none where no operation has written it (R50, R58). -/
def Memory.read : List Host.Cell → Nat → Option Byte
  | [], _ => none
  | (k, v) :: m, a => if a = k then some v else Memory.read m a

/-- Write one byte; it is written from then on (R58). Keeps the addresses strictly rising. -/
def Memory.write : List Host.Cell → Nat → Byte → List Host.Cell
  | [], a, b => [(a, b)]
  | (k, v) :: m, a, b =>
    if a < k then (a, b) :: (k, v) :: m
    else if a = k then (a, b) :: m
    else (k, v) :: Memory.write m a b

/-- The canonical form: addresses strictly rising, each inside the buffer (R50). -/
abbrev Memory.wf (m : List Host.Cell) : Prop :=
  m.Pairwise (fun x y => x.1 < y.1) ∧ ∀ c ∈ m, c.1 < Config.frSize

/-- Read `n` bytes from address `a` up; the fault names the lowest unwritten one (R55, R58). -/
def Memory.readRun (m : List Host.Cell) (a : Nat) : Nat → Except Fault (List Byte)
  | 0 => .ok []
  | n + 1 =>
    match Memory.read m a with
    | none => .error (.unwrittenRead a)
    | some b =>
      match Memory.readRun m (a + 1) n with
      | .ok bs => .ok (b :: bs)
      | .error f => .error f

/-- Write bytes from address `a` up (R55). -/
def Memory.writeRun (m : List Host.Cell) (a : Nat) : List Byte → List Host.Cell
  | [] => m
  | b :: bs => Memory.writeRun (Memory.write m a b) (a + 1) bs

/-- The byte `FR[a]`, or none where it is unwritten (R50, R58). -/
def State.byte (s : State) (a : Nat) : Option Byte := Memory.read s.fr a

/-- `FR[a], FR[a+1], ... <- bs` (R10, R55). -/
def State.writeBytes (s : State) (a : Nat) (bs : List Byte) : State :=
  { s with fr := Memory.writeRun s.fr a bs }

/-! ### The ports -/

/-- Return a response record (R28, R30). -/
def State.respond (s : State) (r : Response) : State := { s with responses := s.responses ++ [r] }

/-- Return a response whose header fields are all 0 (R10, R30). -/
def State.answer (s : State) (status : Status) (value : Word) : State :=
  s.respond ⟨status, value, Header.zero⟩

/-- `raise status(0)`: answer an error and change nothing else (R10, R217). -/
def raise (status : Status) (s : State) : Result := .next (s.answer status 0#32)

/-- Take the oldest command word from the command port (R28). -/
def State.nextCommand (s : State) : Option (CommandWord × State) :=
  match s.pending with
  | [] => none
  | c :: rest => some (c, { s with pending := rest })

/-- Issue a command word so that the next step takes it (R28). -/
def State.issueFirst (s : State) (c : CommandWord) : State := { s with pending := c :: s.pending }

/-- The answer to a word that is no command (R75, R213). -/
def illegalCommand (s : State) : Result := raise .illegalCmd s

/-! ### The decoder registers -/

/-- `STATE <- st`. -/
def State.moveTo (s : State) (st : DecoderState) : State := { s with state := st }

/-- `CRC <- crc16_upd(CRC, b)`. -/
def State.feedCrc (poly : Half) (s : State) (b : Byte) : State := { s with crc := crc16Upd poly s.crc b }

/-- `LEN <- b; IDX <- 0; CRC <- crc16_upd(0x0000, b)` (R125). -/
def State.startFrame (poly : Half) (s : State) (b : Byte) : State :=
  { s with len := b, idx := 0#8, crc := crc16Upd poly Config.crcInit b }

/-- `IDX <- IDX + 1` (R126). -/
def State.bumpIdx (s : State) : State := { s with idx := s.idx + 1#8 }

/-- The decoder registers at their INIT values (R32, R121). -/
def State.initDecoder (s : State) : State :=
  { s with state := .sync1, len := 0#8, idx := 0#8, crc := Config.crcInit }

end Sys2Proof.Machine
end

