-- ==== Sys2Proof/Machine/Access.lean ====
section
/-! DEFINITION. The twelve scalar accessors LD.* and ST.* (44_buffer_access.md R190 to R204). Neither reads or writes a decoder register (R204). -/

namespace Sys2Proof.Machine

/-- A load of `n` bytes at offset `o` (R191, then R58, then the read), its `8n` bits extended to 32 (R72). -/
def load (n : Nat) (signed : Bool) (o : Byte) (s : State) : Result :=
  if offsetInRange o n then
    match Memory.readRun s.fr (payloadAddr o) n with
    | .error f => .fault f
    | .ok bs => .next (s.answer .ok (extendTo32 signed (leValue (8 * n) bs)))
  else raise .rangeFault s

/-- A store of the low `8n` bits of `v` at offset `o` (R191, R198 to R203). -/
def store (n : Nat) (o : Byte) (v : Word) (s : State) : Result :=
  if offsetInRange o n then .next ((s.writeBytes (payloadAddr o) (leBytes n v)).answer .ok 0#32)
  else raise .rangeFault s

/-- LD.U8 `o` (R192). -/
def execLdU8 (o : Byte) (s : State) : Result := load 1 false o s

/-- LD.I8 `o` (R193). -/
def execLdI8 (o : Byte) (s : State) : Result := load 1 true o s

/-- LD.U16 `o` (R194). -/
def execLdU16 (o : Byte) (s : State) : Result := load 2 false o s

/-- LD.I16 `o` (R195). -/
def execLdI16 (o : Byte) (s : State) : Result := load 2 true o s

/-- LD.U32 `o` (R196). -/
def execLdU32 (o : Byte) (s : State) : Result := load 4 false o s

/-- LD.I32 `o` (R197): the same 32 bits as LD.U32's. -/
def execLdI32 (o : Byte) (s : State) : Result := load 4 true o s

/-- ST.U8 `o, v` (R198). -/
def execStU8 (o : Byte) (v : Word) (s : State) : Result := store 1 o v s

/-- ST.I8 `o, v` (R199). -/
def execStI8 (o : Byte) (v : Word) (s : State) : Result := store 1 o v s

/-- ST.U16 `o, v` (R200). -/
def execStU16 (o : Byte) (v : Word) (s : State) : Result := store 2 o v s

/-- ST.I16 `o, v` (R201). -/
def execStI16 (o : Byte) (v : Word) (s : State) : Result := store 2 o v s

/-- ST.U32 `o, v` (R202). -/
def execStU32 (o : Byte) (v : Word) (s : State) : Result := store 4 o v s

/-- ST.I32 `o, v` (R203). -/
def execStI32 (o : Byte) (v : Word) (s : State) : Result := store 4 o v s

end Sys2Proof.Machine
end

