-- ==== Sys2Proof/Machine/Decoder.lean ====
section
/-! DEFINITION. INIT and RXB, the frame decoder (41_framer_decode.md R121 to R128). -/

namespace Sys2Proof.Machine

/-- INIT: the decoder registers to their initial values; no buffer byte and no unwritten mark changes (R121). -/
def execInit (s : State) : Result := .next (s.initDecoder.answer .ok 0#32)

/-- The answer to an RXB that ends no frame. -/
def incomplete (s : State) : Result := .next (s.answer .incomplete 0#32)

/-- RXB in SYNC1 (R123). -/
def rxbSync1 (b : Byte) (s : State) : Result :=
  if b = Config.sync1 then incomplete (s.moveTo .sync2) else incomplete s

/-- RXB in SYNC2 (R124): a mismatching byte is not tried again as a first sync byte. -/
def rxbSync2 (b : Byte) (s : State) : Result :=
  if b = Config.sync2 then incomplete (s.moveTo .length) else incomplete (s.moveTo .sync1)

/-- RXB in LENGTH (R125): an oversized length drops the frame and writes only `STATE`. -/
def rxbLength (poly : Half) (b : Byte) (s : State) : Result :=
  if b.toNat > Config.maxPayload then incomplete (s.moveTo .sync1)
  else if b.toNat > 0 then incomplete ((s.startFrame poly b).moveTo .data)
  else incomplete ((s.startFrame poly b).moveTo .crc1)

/-- What RXB does in DATA (R126): store the byte at the old `IDX`, feed the CRC, count it, and leave DATA after the last. -/
def storePayloadByte (poly : Half) (b : Byte) (s : State) : State :=
  let t := ((s.writeBytes (payloadAddr s.idx) [b]).feedCrc poly b).bumpIdx
  if t.idx = t.len then t.moveTo .crc1 else t

/-- RXB in DATA (R126). In a state that breaks R25 the address may not exist: a fault (log entry 7). -/
def rxbData (poly : Half) (b : Byte) (s : State) : Result :=
  if payloadAddr s.idx < Config.frSize then incomplete (storePayloadByte poly b s)
  else .fault (.outsideBuffer (payloadAddr s.idx))

/-- RXB in CRC1 (R127). -/
def rxbCrc1 (poly : Half) (b : Byte) (s : State) : Result :=
  incomplete ((s.feedCrc poly b).moveTo .crc2)

/-- RXB in CRC2, with the CRC gate (R128). -/
def rxbCrc2 (poly : Half) (b : Byte) (s : State) : Result :=
  let t := (s.feedCrc poly b).moveTo .sync1
  .next (t.respond (crcGate t.crc t.len))

/-- One decoder transition, chosen by `STATE` (R122), for a given generator. -/
def receiveByte (poly : Half) (b : Byte) (s : State) : Result :=
  match s.state with
  | .sync1 => rxbSync1 b s
  | .sync2 => rxbSync2 b s
  | .length => rxbLength poly b s
  | .data => rxbData poly b s
  | .crc1 => rxbCrc1 poly b s
  | .crc2 => rxbCrc2 poly b s

/-- RXB `b` (R122). -/
def execRxb (b : Byte) (s : State) : Result := receiveByte Config.crcPoly b s

end Sys2Proof.Machine
end

