-- ==== Sys2Proof/Machine/Encoder.lean ====
section
/-! DEFINITION. ENC and FRD, the frame encoder and the frame-buffer read port (42_framer_encode.md R150 to R158). -/

namespace Sys2Proof.Machine

/-- ENC `n` for a given generator (R150): the length check, the payload read, then the prefix and the trailer. It neither
reads nor writes the decoder registers (R152). -/
def encodeFrame (poly : Half) (n : Byte) (s : State) : Result :=
  if lengthEncodable n then
    match Memory.readRun s.fr Config.pfx n.toNat with
    | .error f => .fault f
    | .ok payload =>
      let t := crc16 poly (n :: payload)
      let s₁ := s.writeBytes 0 [Config.sync1, Config.sync2, n]
      let s₂ := s₁.writeBytes (payloadAddr n) (crcTrailer t)
      .next (s₂.answer .ok (n.setWidth 32 + 5#32))
  else raise .encodeError s

/-- ENC `n` (R150, R151). -/
def execEnc (n : Byte) (s : State) : Result := encodeFrame Config.crcPoly n s

/-- FRD `a` (R158). -/
def execFrd (a : Byte) (s : State) : Result :=
  if addressInRange a then
    match s.byte a.toNat with
    | none => .fault (.unwrittenRead a.toNat)
    | some b => .next (s.answer .ok (b.setWidth 32))
  else raise .rangeFault s

end Sys2Proof.Machine
end

