-- ==== Sys2Proof/Machine/HeaderCodec.lean ====
section
/-! DEFINITION. HDR.RD and HDR.WR, the header unpacker and packer (43_header_codec.md R170 to R178). Neither reads or writes a decoder register (R178). -/

namespace Sys2Proof.Machine

/-- HDR.RD for a given protocol version (R171, R172): it reads only `PB[0..2]`, not the pad byte. -/
def readHeader (version : BitVec 2) (s : State) : Result :=
  match Memory.readRun s.fr Config.pfx 3 with
  | .error f => .fault f
  | .ok bs =>
    let h := leValue 24 bs
    if versionAccepted version h then .next (s.respond ⟨.ok, h.setWidth 32, Header.unpack h⟩)
    else raise .versionError s

/-- HDR.RD (R171). -/
def execHdrRd (s : State) : Result := readHeader Config.version s

/-- HDR.WR `h` (R175): four bytes, the fourth the zero pad byte (R176); the version is not checked. -/
def execHdrWr (h : BitVec 24) (s : State) : Result :=
  .next ((s.writeBytes Config.pfx (leBytes 4 (h.setWidth 32))).answer .ok 0#32)

end Sys2Proof.Machine
end

