-- ==== Sys2Proof/Machine/Dispatch.lean ====
section
/-! DEFINITION. The meaning of each command: one arm per constructor of `Instr`, one direct call each. -/

namespace Sys2Proof.Machine

/-- What a command does (00_scope.md R11: one atomic step). -/
def exec (i : Instr) (s : State) : Host.Outcome State Fault Refusal :=
  match i with
  | .init => Sys2Proof.Machine.execInit s
  | .rxb b => Sys2Proof.Machine.execRxb b s
  | .enc n => Sys2Proof.Machine.execEnc n s
  | .hdrRd => Sys2Proof.Machine.execHdrRd s
  | .hdrWr h => Sys2Proof.Machine.execHdrWr h s
  | .ldU8 o => Sys2Proof.Machine.execLdU8 o s
  | .ldI8 o => Sys2Proof.Machine.execLdI8 o s
  | .ldU16 o => Sys2Proof.Machine.execLdU16 o s
  | .ldI16 o => Sys2Proof.Machine.execLdI16 o s
  | .ldU32 o => Sys2Proof.Machine.execLdU32 o s
  | .ldI32 o => Sys2Proof.Machine.execLdI32 o s
  | .stU8 o v => Sys2Proof.Machine.execStU8 o v s
  | .stI8 o v => Sys2Proof.Machine.execStI8 o v s
  | .stU16 o v => Sys2Proof.Machine.execStU16 o v s
  | .stI16 o v => Sys2Proof.Machine.execStI16 o v s
  | .stU32 o v => Sys2Proof.Machine.execStU32 o v s
  | .stI32 o v => Sys2Proof.Machine.execStI32 o v s
  | .frd a => Sys2Proof.Machine.execFrd a s

end Sys2Proof.Machine
end

