-- ==== Sys2Proof/Machine/Step.lean ====
section
/-! DEFINITION. One step of the machine: take the oldest command word, decode it and run it (30_encoding.md R75, 10_state.md R28). -/

namespace Sys2Proof.Machine

/-- One step. With no command at the port the block waits and changes nothing (R28, R29; DESIGN CHOICE, log entry 3, safe). -/
def step (s : State) : Host.Outcome State Fault Refusal :=
  match s.nextCommand with
  | none => .next s
  | some (c, t) =>
    match decode c with
    | none => illegalCommand t
    | some i => exec i t

/-- The state with the command word `w` (of `nbits` bits, the bits above them 0) issued, so that the next step takes it
(log entry 1). -/
def State.withFetchWord (s : State) (nbits w : Nat) : State := s.issueFirst (commandOfTableWord nbits w)

end Sys2Proof.Machine
end

