-- ==== Sys2Proof/Machine/Sequence.lean ====
section
/-! DEFINITION. Sequences of steps and of commands as the host issues them: the order of effects is the issue order (20_memory.md R60), the assembler's field form of HDR.WR (30_encoding.md R78) and the pseudo-instructions RXS, HDR.WRW and TXF (R79). -/

namespace Sys2Proof.Machine

/-- Run commands in order, each on the state the one before it left; the first fault or refusal ends the run (R60, R216, R260). -/
def runCommands : List Instr → State → Result
  | [], s => .next s
  | i :: is, s =>
    match exec i s with
    | .next t => runCommands is t
    | .fault f => .fault f
    | .refused r => .refused r

/-- `k` steps, each on the state the one before it left; the first fault or refusal ends the run (R28, R260). -/
def runSteps : Nat → State → Result
  | 0, s => .next s
  | k + 1, s =>
    match step s with
    | .next t => runSteps k t
    | .fault f => .fault f
    | .refused r => .refused r

/-- `RXS b0, b1, ..., bk` (R79). -/
def rxs (bs : List Byte) : List Instr := bs.map Instr.rxb

/-- `HDR.WR ver, svc, mth, seq, typ, pro` with the fields written separately (R78). -/
def hdrWrFields (h : Header) : Instr := .hdrWr h.pack

/-- `HDR.WRW h` (R79). -/
def hdrWrw (h : BitVec 24) : Instr := .hdrWr h

/-- `FRD 0 ; FRD 1 ; ... ; FRD k-1`. -/
def frdUpTo (k : Nat) : List Instr := (List.range k).map fun a => .frd (BitVec.ofNat 8 a)

/-- The status of the last response, if there is one. -/
def State.lastStatus (s : State) : Option Status := s.responses.getLast?.map Response.status

/-- `TXF n`: `ENC n`, then, only if it returned OK, `FRD 0` to `FRD n+4` (R79). -/
def txf (n : Byte) (s : State) : Result :=
  match exec (.enc n) s with
  | .next t => if t.lastStatus = some .ok then runCommands (frdUpTo (n.toNat + 5)) t else .next t
  | .fault f => .fault f
  | .refused r => .refused r

end Sys2Proof.Machine
end

