-- ==== Sys2Proof/Safety.lean ====
section
/-! DEFINITION. What counts as a legal state and a safe answer, in the terms the obligations use. -/

namespace Sys2Proof.Machine

/-- The register invariants of 10_state.md R25. -/
def State.registersLegal (s : State) : Prop :=
  s.len.toNat ≤ 128 ∧
  (s.state = .data → 1 ≤ s.len.toNat ∧ s.idx.toNat < s.len.toNat) ∧
  (s.state = .crc1 ∨ s.state = .crc2 → s.idx = s.len) ∧
  s.idx.toNat ≤ s.len.toNat

/-- The legal states of the block: R25 of the registers, the buffer in canonical form, and `FR[132]`, which no operation
writes (R50), unwritten. -/
def State.legal (s : State) : Prop :=
  s.registersLegal ∧ Memory.wf s.fr ∧ s.byte 132 = none

/-- `FR[a], FR[a+1], ...` hold exactly the bytes `bs`. -/
def State.holds (s : State) (a : Nat) (bs : List Byte) : Prop :=
  ∀ k, (h : k < bs.length) → s.byte (a + k) = some bs[k]

/-- `u` has the same bytes as `s` at `FR[a..a+n-1]`. -/
def State.sameBytes (s u : State) (a n : Nat) : Prop := ∀ k, k < n → u.byte (a + k) = s.byte (a + k)

/-- `t` differs from `s` at most in the buffer and in the response port, which gained the one record `r`: every decoder
register and the command port are unchanged. -/
def State.answersStoring (s t : State) (r : Response) : Prop :=
  t = { s with responses := s.responses ++ [r], fr := t.fr }

/-- The bytes outside `FR[a..a+n-1]` read as before. -/
def State.sameOutside (s t : State) (a n : Nat) : Prop := ∀ k, k < a ∨ a + n ≤ k → t.byte k = s.byte k

/-- The reads column of R52: the byte `FR[k]` is one the command reads, its operand being in range. -/
def readsByte : Instr → Nat → Prop
  | .init, _ => False
  | .rxb _, _ => False
  | .enc n, k => n.toNat < 128 ∧ 3 ≤ k ∧ k < 3 + n.toNat
  | .hdrRd, k => 3 ≤ k ∧ k < 6
  | .hdrWr _, _ => False
  | .ldU8 o, k => o.toNat + 1 ≤ 128 ∧ 3 + o.toNat ≤ k ∧ k < 3 + o.toNat + 1
  | .ldI8 o, k => o.toNat + 1 ≤ 128 ∧ 3 + o.toNat ≤ k ∧ k < 3 + o.toNat + 1
  | .ldU16 o, k => o.toNat + 2 ≤ 128 ∧ 3 + o.toNat ≤ k ∧ k < 3 + o.toNat + 2
  | .ldI16 o, k => o.toNat + 2 ≤ 128 ∧ 3 + o.toNat ≤ k ∧ k < 3 + o.toNat + 2
  | .ldU32 o, k => o.toNat + 4 ≤ 128 ∧ 3 + o.toNat ≤ k ∧ k < 3 + o.toNat + 4
  | .ldI32 o, k => o.toNat + 4 ≤ 128 ∧ 3 + o.toNat ≤ k ∧ k < 3 + o.toNat + 4
  | .stU8 _ _, _ => False
  | .stI8 _ _, _ => False
  | .stU16 _ _, _ => False
  | .stI16 _ _, _ => False
  | .stU32 _ _, _ => False
  | .stI32 _ _, _ => False
  | .frd a, k => a.toNat < 133 ∧ k = a.toNat

/-- The writes column of R52: the byte `FR[k]` is one the command writes when it is issued in state `s`. -/
def State.writesByte (s : State) : Instr → Nat → Prop
  | .init, _ => False
  | .rxb _, k => s.state = .data ∧ k = 3 + s.idx.toNat
  | .enc n, k => n.toNat < 128 ∧ (k < 3 ∨ k = 3 + n.toNat ∨ k = 4 + n.toNat)
  | .hdrRd, _ => False
  | .hdrWr _, k => 3 ≤ k ∧ k < 7
  | .ldU8 _, _ => False
  | .ldI8 _, _ => False
  | .ldU16 _, _ => False
  | .ldI16 _, _ => False
  | .ldU32 _, _ => False
  | .ldI32 _, _ => False
  | .stU8 o _, k => o.toNat + 1 ≤ 128 ∧ 3 + o.toNat ≤ k ∧ k < 3 + o.toNat + 1
  | .stI8 o _, k => o.toNat + 1 ≤ 128 ∧ 3 + o.toNat ≤ k ∧ k < 3 + o.toNat + 1
  | .stU16 o _, k => o.toNat + 2 ≤ 128 ∧ 3 + o.toNat ≤ k ∧ k < 3 + o.toNat + 2
  | .stI16 o _, k => o.toNat + 2 ≤ 128 ∧ 3 + o.toNat ≤ k ∧ k < 3 + o.toNat + 2
  | .stU32 o _, k => o.toNat + 4 ≤ 128 ∧ 3 + o.toNat ≤ k ∧ k < 3 + o.toNat + 4
  | .stI32 o _, k => o.toNat + 4 ≤ 128 ∧ 3 + o.toNat ≤ k ∧ k < 3 + o.toNat + 4
  | .frd _, _ => False

/-- The response of an RXB that ended no frame. -/
def incompleteResponse : Response := ⟨.incomplete, 0#32, Header.zero⟩

/-- The bytes of a frame in wire order (R80). -/
def wireFrame (n : Byte) (payload : List Byte) (x₀ x₁ : Byte) : List Byte :=
  [0x5A#8, 0x7E#8, n] ++ payload ++ [x₀, x₁]

end Sys2Proof.Machine
end

