-- ==== Sys2Proof/Certificates/Slice0/Obligations.lean ====
section
/-! DEFINITION. The statements for the provers, from the numbered rules of spec/. `Config.crcPoly` and `Config.version` stand for P_CRC_POLY and P_VERSION: nothing is known of them but that bit 15 of the generator is 1, so a statement about them holds for every value. -/

open Sys2Proof Sys2Proof.Machine

/-! ### Encodings -/

/-- Decoding an encoded command gives it back, for every command and every operand (R71 to R75, R78). -/
def Obligations.DecodeOfEncodedCommand : Prop := ∀ i : Instr, decode (encode i) = some i

/-- Every command word has one meaning and no ignored bit: a word that decodes is the encoding of what it decodes to (R73, R75, R76). -/
def Obligations.EncodeOfDecodedWord : Prop := ∀ (c : CommandWord) (i : Instr), decode c = some i → encode i = c

/-- No two rows of the opcode table match the same word (R75). -/
def Obligations.OpcodeRowsNeverOverlap : Prop :=
  ∀ (c : CommandWord) (j k : Nat) (r q : Row), opcodeTable[j]? = some r → opcodeTable[k]? = some q →
    rowMatches r c = true → rowMatches q c = true → j = k

/-- R76 and R213: a word whose fields break R73 is answered ILLEGAL_CMD with value 0 and all-zero header fields, and nothing else
changes but that the word is taken; every other word is one of the 18 commands. -/
def Obligations.IllegalWordsAnswered : Prop :=
  ∀ (s : State) (c : CommandWord) (rest : List CommandWord), s.pending = c :: rest →
    ((fieldsOf c).wellFormed = false →
      step s = .next { s with pending := rest, responses := s.responses ++ [⟨.illegalCmd, 0#32, Header.zero⟩] }) ∧
    ((fieldsOf c).wellFormed = true → ∃ i, decode c = some i)

/-- Words written out bit by bit from R71 to R73 and R78 decode to the commands they stand for (sanity). -/
def Obligations.HandEncodedWordsDecode : Prop :=
  decode 0x000000000000#48 = some .init ∧ decode 0x105A00000000#48 = some (.rxb 0x5A#8) ∧
  decode 0x20C800000000#48 = some (.enc 200#8) ∧ decode 0x400000000005#48 = some (.hdrWr 0x000005#24) ∧
  decode 0x530500000000#48 = some (.ldI16 5#8) ∧ decode 0x6408DEADBEEF#48 = some (.stU32 8#8 0xDEADBEEF#32) ∧
  decode 0x708500000000#48 = some (.frd 133#8) ∧ decode 0x560000000000#48 = none

/-- The field form of HDR.WR (R78, R83): the six fields stand at bits 0, 2, 7, 13, 18 and 20 of `D`, with no gap and no overlap. -/
def Obligations.HeaderFieldsTileCommandWord : Prop :=
  ∀ h : Header, encode (hdrWrFields h) =
    0x4#4 ++ 0#4 ++ 0#8 ++ 0#8 ++ h.protocol ++ h.type ++ h.sequence ++ h.method ++ h.service ++ h.version

/-- The status codes of R90: distinct, and none of 8 to 15. -/
def Obligations.StatusCodesOfTable : Prop :=
  Status.code .ok = 0#4 ∧ Status.code .incomplete = 1#4 ∧ Status.code .frameReady = 2#4 ∧ Status.code .checksumError = 3#4 ∧
  Status.code .encodeError = 4#4 ∧ Status.code .versionError = 5#4 ∧ Status.code .rangeFault = 6#4 ∧
  Status.code .illegalCmd = 7#4 ∧ ∀ st : Status, (Status.code st).toNat < 8

/-! ### Steps and ports -/

/-- A step runs the decoded command (R75): the oldest word is taken from the port and its command runs on the state without it. -/
def Obligations.StepRunsDecodedCommand : Prop :=
  ∀ (s : State) (c : CommandWord) (rest : List CommandWord) (i : Instr), s.pending = c :: rest → decode c = some i →
    step s = exec i { s with pending := rest }

/-- With no command at the port a step changes nothing. The model's own choice (log entry 3), not a rule of the spec. -/
def Obligations.IdleStepChangesNothing : Prop := ∀ s : State, s.pending = [] → step s = .next s

/-- Stepping through commands queued at the port is running them in issue order, each on the state the one before left
(R28, R60, R260): the same responses, the same final state and the same fault. The queue of words is the model's own form of the
command port (log entry 1). -/
def Obligations.QueuedCommandsRunInOrder : Prop :=
  ∀ (is : List Instr) (s : State) (rest : List CommandWord),
    runSteps is.length { s with pending := is.map encode ++ rest } = runCommands is { s with pending := rest }

/-- Every command that completes returns exactly one response record and leaves the command port alone; the record's header
fields are all 0 but in a successful HDR.RD (R28, R30). -/
def Obligations.OneResponsePerCommand : Prop :=
  ∀ (i : Instr) (s t : State), exec i s = .next t →
    t.pending = s.pending ∧ ∃ r : Response, t.responses = s.responses ++ [r] ∧
      (r.hdr ≠ Header.zero → i = .hdrRd ∧ r.status = .ok)

/-- No status is stored (R31, R221): what a command does and answers is the same whatever was answered before and whatever is
still queued. -/
def Obligations.EarlierResponsesDoNotMatter : Prop :=
  ∀ (i : Instr) (s : State) (q : List CommandWord) (rs : List Response),
    exec i { s with pending := q, responses := rs } =
      match exec i s with
      | .next t => .next { t with pending := q, responses := rs ++ t.responses.drop s.responses.length }
      | .fault f => .fault f
      | .refused r => .refused r

/-! ### Reset and invariants -/

/-- The power-on state (R32, R33, R240): the registers hold the values INIT writes, and every buffer byte is unwritten. -/
def Obligations.PowerOnState : Prop :=
  State.reset.state = .sync1 ∧ State.reset.len = 0#8 ∧ State.reset.idx = 0#8 ∧ State.reset.crc = 0#16 ∧
  (∀ a, State.reset.byte a = none) ∧
  ∀ s t : State, exec .init s = .next t →
    t.state = State.reset.state ∧ t.len = State.reset.len ∧ t.idx = State.reset.idx ∧ t.crc = State.reset.crc ∧ t.fr = s.fr

/-- The power-on state is legal. -/
def Obligations.PowerOnStateLegal : Prop := State.reset.legal

/-- Every step keeps R25's register invariants, the buffer's canonical form, and `FR[132]` unwritten (R25, R50). -/
def Obligations.StepKeepsLegalStates : Prop := ∀ s t : State, s.legal → step s = .next t → t.legal

/-- No step is refused; from a legal state the only stop is UNWRITTEN_READ, by ENC, HDR.RD, an LD or FRD (R211, R216). -/
def Obligations.OnlyUnwrittenReadsStop : Prop :=
  (∀ (s : State) (r : Refusal), step s ≠ .refused r) ∧
  ∀ (s : State) (f : Fault), s.legal → step s = .fault f →
    ∃ (c : CommandWord) (rest : List CommandWord) (i : Instr) (a : Nat),
      s.pending = c :: rest ∧ decode c = some i ∧ f = .unwrittenRead a ∧ readsByte i a ∧ a < 133 ∧ s.byte a = none

/-! ### Frames over all commands -/

/-- Only INIT and RXB write `STATE`, `LEN`, `IDX` and `CRC` (R20, R26). -/
def Obligations.OnlyInitAndRxbWriteRegisters : Prop :=
  ∀ (i : Instr) (s t : State), exec i s = .next t → i ≠ .init → (∀ b, i ≠ .rxb b) →
    t.state = s.state ∧ t.len = s.len ∧ t.idx = s.idx ∧ t.crc = s.crc

/-- Which command writes which bytes (R52): every byte outside the writes column reads as before, and every byte in it is
written afterwards. -/
def Obligations.CommandsWriteExactlyTheirBytes : Prop :=
  ∀ (i : Instr) (s t : State), exec i s = .next t →
    ∀ k, (¬ s.writesByte i k → t.byte k = s.byte k) ∧ (s.writesByte i k → t.byte k ≠ none)

/-- UNWRITTEN_READ (R58): a command ends in it exactly when a byte of its reads column (R52) is unwritten, and it names the lowest. -/
def Obligations.UnwrittenReadNamesLowestByte : Prop :=
  ∀ (i : Instr) (s : State) (a : Nat), exec i s = .fault (.unwrittenRead a) ↔
    readsByte i a ∧ s.byte a = none ∧ ∀ k, k < a → readsByte i k → s.byte k ≠ none

/-- A byte once written stays written (R58). -/
def Obligations.WrittenBytesStayWritten : Prop :=
  ∀ (s t : State) (a : Nat), step s = .next t → s.byte a ≠ none → t.byte a ≠ none

/-- Every error is precise (R217): a step that answers ENCODE_ERROR, VERSION_ERROR, RANGE_FAULT or ILLEGAL_CMD changes nothing
but the two ports, and its value and header fields are 0. -/
def Obligations.ErrorsArePrecise : Prop :=
  ∀ (s t : State) (r : Response), step s = .next t → t.responses = s.responses ++ [r] →
    r.status = .encodeError ∨ r.status = .versionError ∨ r.status = .rangeFault ∨ r.status = .illegalCmd →
    r.value = 0#32 ∧ r.hdr = Header.zero ∧ t = { s with pending := t.pending, responses := s.responses ++ [r] }

/-! ### The CRC-16 validator -/

/-- The trailer of R103 brings the register to zero, for every generator and every byte sequence (R105). -/
def Obligations.TrailerClearsCrc : Prop :=
  ∀ (poly : Half) (bs : List Byte), crc16 poly (bs ++ crcTrailer (crc16 poly bs)) = 0#16

/-- Only one trailer passes (R107): with bit 15 of the generator 1, two bytes clear the register exactly when they are its low
and its high byte. -/
def Obligations.PassingTrailerUnique : Prop :=
  ∀ (poly c : Half) (x₀ x₁ : Byte), poly.getLsbD 15 = true →
    (crc16Upd poly (crc16Upd poly c x₀) x₁ = 0#16 ↔ x₀ = c.extractLsb' 0 8 ∧ x₁ = c.extractLsb' 8 8)

/-- The update is linear over GF(2) (R108). -/
def Obligations.CrcUpdateLinear : Prop :=
  ∀ (poly c₁ c₂ : Half) (b₁ b₂ : Byte), crc16Upd poly (c₁ ^^^ c₂) (b₁ ^^^ b₂) = crc16Upd poly c₁ b₁ ^^^ crc16Upd poly c₂ b₂

/-- The update as one table lookup (R109). -/
def Obligations.CrcTableFormAgrees : Prop :=
  ∀ (poly c : Half) (b : Byte), crc16UpdByTable poly c b = crc16Upd poly c b

/-- All-zero sequences have CRC 0, and the byte 0x80 shows the generator, for every generator (R108). -/
def Obligations.CrcCornerValues : Prop :=
  (∀ (poly : Half) (k : Nat), crc16 poly (List.replicate k 0#8) = 0#16) ∧ ∀ poly : Half, crc16Upd poly 0#16 0x80#8 = poly

/-! ### The decoder -/

/-- INIT (R121), in every state: the four registers take their initial values, no byte changes, the answer is `(OK, 0)`. -/
def Obligations.InitResetsDecoder : Prop :=
  encode .init = 0#48 ∧ ∀ s : State, exec .init s = .next
    { s with state := .sync1, len := 0#8, idx := 0#8, crc := 0#16, responses := s.responses ++ [⟨.ok, 0#32, Header.zero⟩] }

/-- RXB in SYNC1 and in SYNC2 (R123, R124). -/
def Obligations.RxbDetectsSync : Prop :=
  ∀ (s : State) (b : Byte),
    (s.state = .sync1 → exec (.rxb b) s = .next
      { s with state := if b = 0x5A#8 then .sync2 else .sync1, responses := s.responses ++ [incompleteResponse] }) ∧
    (s.state = .sync2 → exec (.rxb b) s = .next
      { s with state := if b = 0x7E#8 then .length else .sync1, responses := s.responses ++ [incompleteResponse] })

/-- RXB in LENGTH (R125): an oversized byte writes only `STATE`; an accepted one starts the frame. -/
def Obligations.RxbDecodesLength : Prop :=
  ∀ (s : State) (b : Byte), s.state = .length →
    (128 < b.toNat → exec (.rxb b) s = .next
      { s with state := .sync1, responses := s.responses ++ [incompleteResponse] }) ∧
    (b.toNat ≤ 128 → exec (.rxb b) s = .next
      { s with
        state := if b = 0#8 then .crc1 else .data, len := b, idx := 0#8, crc := crc16Upd Config.crcPoly 0#16 b,
        responses := s.responses ++ [incompleteResponse] })

/-- RXB in DATA (R126), in a state that meets R25: the byte goes to `PB[IDX]` at the old `IDX`, which is inside `PB[0..127]`;
`IDX` does not wrap; nothing else changes. -/
def Obligations.RxbStoresPayloadByte : Prop :=
  ∀ (s : State) (b : Byte), s.state = .data → s.registersLegal →
    ∃ t, exec (.rxb b) s = .next t ∧
      t = { s with
            state := if s.idx + 1#8 = s.len then .crc1 else .data, idx := s.idx + 1#8,
            crc := crc16Upd Config.crcPoly s.crc b, fr := t.fr, responses := s.responses ++ [incompleteResponse] } ∧
      s.idx.toNat < 128 ∧ t.idx.toNat = s.idx.toNat + 1 ∧
      t.byte (3 + s.idx.toNat) = some b ∧ ∀ k, k ≠ 3 + s.idx.toNat → t.byte k = s.byte k

/-- RXB in CRC1 and CRC2, with the CRC gate (R127, R128). -/
def Obligations.RxbChecksTrailer : Prop :=
  ∀ (s : State) (b : Byte),
    (s.state = .crc1 → exec (.rxb b) s = .next
      { s with
        state := .crc2, crc := crc16Upd Config.crcPoly s.crc b, responses := s.responses ++ [incompleteResponse] }) ∧
    (s.state = .crc2 → exec (.rxb b) s = .next
      { s with
        state := .sync1, crc := crc16Upd Config.crcPoly s.crc b,
        responses := s.responses ++
          [if crc16Upd Config.crcPoly s.crc b = 0#16 then ⟨.frameReady, s.len.setWidth 32, Header.zero⟩
           else ⟨.checksumError, 0#32, Header.zero⟩] })

/-- RXB takes every byte in every legal state (R122): it answers INCOMPLETE, FRAME_READY or CHECKSUM_ERROR, the last two only
in CRC2 (R134). -/
def Obligations.RxbTakesEveryByte : Prop :=
  ∀ (s : State) (b : Byte), s.registersLegal →
    encode (.rxb b) = 0x1#4 ++ 0#4 ++ b ++ 0#32 ∧
    ∃ (t : State) (r : Response), exec (.rxb b) s = .next t ∧ t.responses = s.responses ++ [r] ∧ r.hdr = Header.zero ∧
      (s.state ≠ .crc2 → r = incompleteResponse) ∧
      (s.state = .crc2 → (r.status = .frameReady ∧ r.value = s.len.setWidth 32) ∨ (r.status = .checksumError ∧ r.value = 0#32))

/-- The decoder's promise (R134, R129): from SYNC1, the bytes of a frame with `L ≤ 128` are answered INCOMPLETE but for the
last, which is FRAME_READY with `L` when the CRC over length, payload and trailer is zero and CHECKSUM_ERROR otherwise. Either
way the payload is in `PB[0..L-1]`, no other byte has changed, and the decoder is back in SYNC1. -/
def Obligations.FrameReceptionPromise : Prop :=
  ∀ (s : State) (n : Byte) (p : List Byte) (x₀ x₁ : Byte), s.state = .sync1 → n.toNat ≤ 128 → p.length = n.toNat →
    ∃ t, runCommands (rxs (wireFrame n p x₀ x₁)) s = .next t ∧
      t.responses = s.responses ++ List.replicate (n.toNat + 4) incompleteResponse ++
        [if crc16 Config.crcPoly (n :: p ++ [x₀, x₁]) = 0#16 then ⟨.frameReady, n.setWidth 32, Header.zero⟩
         else ⟨.checksumError, 0#32, Header.zero⟩] ∧
      t.state = .sync1 ∧ t.len = n ∧ t.idx = n ∧ t.crc = crc16 Config.crcPoly (n :: p ++ [x₀, x₁]) ∧
      t.pending = s.pending ∧ t.holds 3 p ∧ s.sameOutside t 3 n.toNat

/-- A truncated frame absorbs later bytes, sync bytes among them (R131, R132): in DATA the next `LEN - IDX` bytes, whatever
they are, are stored as payload and leave the decoder in CRC1. -/
def Obligations.TruncatedFrameAbsorbsBytes : Prop :=
  ∀ (s : State) (bs : List Byte), s.state = .data → s.registersLegal → bs.length = s.len.toNat - s.idx.toNat →
    ∃ t, runCommands (rxs bs) s = .next t ∧ t.state = .crc1 ∧ t.len = s.len ∧ t.idx = s.len ∧
      t.responses = s.responses ++ List.replicate bs.length incompleteResponse ∧
      t.holds (3 + s.idx.toNat) bs ∧ s.sameOutside t (3 + s.idx.toNat) bs.length

/-- The sync limitation (R131, R256): from SYNC1, a run of `0x5A` bytes and then `0x7E` reaches LENGTH exactly when the run is
odd; otherwise the decoder is back in SYNC1 and the frame is lost. -/
def Obligations.SyncRunParityDecidesFrame : Prop :=
  ∀ (s : State) (k : Nat), s.state = .sync1 →
    ∃ t, runCommands (rxs (List.replicate k 0x5A#8 ++ [0x7E#8])) s = .next t ∧
      t.state = (if k % 2 = 1 then .length else .sync1) ∧ t.len = s.len ∧ t.idx = s.idx ∧ t.crc = s.crc ∧ t.fr = s.fr ∧
      t.responses = s.responses ++ List.replicate (k + 1) incompleteResponse

/-- The zero-length frame (R133): it skips DATA, writes no byte, and its only valid trailer is `00 00`. -/
def Obligations.ZeroLengthFrame : Prop :=
  ∀ (s : State) (x₀ x₁ : Byte), s.state = .sync1 →
    ∃ t, runCommands (rxs (wireFrame 0#8 [] x₀ x₁)) s = .next t ∧ t.state = .sync1 ∧ t.fr = s.fr ∧
      t.responses = s.responses ++ List.replicate 4 incompleteResponse ++
        [if x₀ = 0#8 ∧ x₁ = 0#8 then ⟨.frameReady, 0#32, Header.zero⟩ else ⟨.checksumError, 0#32, Header.zero⟩]

/-! ### The encoder and the read port -/

/-- ENC `n` (R150): its encoding, the refusal, the frame it writes in place with everything else unchanged, and the model fault at the lowest
unwritten payload byte. -/
def Obligations.EncFramesPayload : Prop :=
  ∀ (s : State) (n : Byte),
    encode (.enc n) = 0x2#4 ++ 0#4 ++ n ++ 0#32 ∧
    (128 ≤ n.toNat → exec (.enc n) s = .next { s with responses := s.responses ++ [⟨.encodeError, 0#32, Header.zero⟩] }) ∧
    (∀ p : List Byte, n.toNat < 128 → p.length = n.toNat → s.holds 3 p →
      ∃ t, exec (.enc n) s = .next t ∧
        s.answersStoring t ⟨.ok, n.setWidth 32 + 5#32, Header.zero⟩ ∧
        t.holds 0 (wireFrame n p ((crc16 Config.crcPoly (n :: p)).extractLsb' 0 8) ((crc16 Config.crcPoly (n :: p)).extractLsb' 8 8)) ∧
        s.sameOutside t 0 (n.toNat + 5)) ∧
    (∀ k, n.toNat < 128 → k < n.toNat → s.byte (3 + k) = none → (∀ j, j < k → s.byte (3 + j) ≠ none) →
      exec (.enc n) s = .fault (.unwrittenRead (3 + k)))

/-- A frame ENC made is accepted by the decoder (R153, R154): feeding the bytes it made back from SYNC1 returns FRAME_READY with
`n` and leaves every byte of the buffer as it was. -/
def Obligations.EncodedFrameIsAccepted : Prop :=
  ∀ (s t : State) (n : Byte), n.toNat < 128 → s.state = .sync1 → exec (.enc n) s = .next t →
    ∃ (bs : List Byte) (u : State), bs.length = n.toNat + 5 ∧ t.holds 0 bs ∧ runCommands (rxs bs) t = .next u ∧
      u.responses = t.responses ++ List.replicate (n.toNat + 4) incompleteResponse ++ [⟨.frameReady, n.setWidth 32, Header.zero⟩] ∧
      ∀ k, u.byte k = t.byte k

/-- Round trip (R154): after a valid frame with `L ≤ 127` has been received from SYNC1, ENC `L`, in any later state whose payload
bytes are still the received ones, makes the received frame byte for byte. -/
def Obligations.ReceivedFrameReencodes : Prop :=
  ∀ (s t u : State) (n : Byte) (p : List Byte) (x₀ x₁ : Byte), s.state = .sync1 → n.toNat ≤ 127 → p.length = n.toNat →
    crc16 Config.crcPoly (n :: p ++ [x₀, x₁]) = 0#16 → runCommands (rxs (wireFrame n p x₀ x₁)) s = .next t →
    t.sameBytes u 3 n.toNat →
    ∃ v, exec (.enc n) u = .next v ∧ v.holds 0 (wireFrame n p x₀ x₁) ∧
      v.responses = u.responses ++ [⟨.ok, n.setWidth 32 + 5#32, Header.zero⟩]

/-- FRD `a` (R158): its encoding, the range check, the model fault on an unwritten byte, and otherwise the byte; nothing is written. -/
def Obligations.FrdReadsFrameByte : Prop :=
  ∀ (s : State) (a : Byte),
    encode (.frd a) = 0x7#4 ++ 0#4 ++ a ++ 0#32 ∧
    (133 ≤ a.toNat → exec (.frd a) s = .next { s with responses := s.responses ++ [⟨.rangeFault, 0#32, Header.zero⟩] }) ∧
    (a.toNat < 133 → s.byte a.toNat = none → exec (.frd a) s = .fault (.unwrittenRead a.toNat)) ∧
    (∀ b : Byte, a.toNat < 133 → s.byte a.toNat = some b →
      exec (.frd a) s = .next { s with responses := s.responses ++ [⟨.ok, b.setWidth 32, Header.zero⟩] })

/-- `FR[132]` is never written (R50), so FRD 132 ends in the model fault in every legal state (R158). -/
def Obligations.FrdOfUnusedByteFaults : Prop :=
  ∀ s : State, s.legal → exec (.frd 132#8) s = .fault (.unwrittenRead 132)

/-- FRD `3 + o` and LD.U8 `o` do the same thing (R158). -/
def Obligations.FrdAgreesWithByteLoad : Prop :=
  ∀ (s : State) (o : Byte), o.toNat < 128 → exec (.frd (o + 3#8)) s = exec (.ldU8 o) s

/-- TXF `n` (R79, R153): it answers ENC's OK and then, in wire order, the `n + 5` bytes of the frame; where ENC refuses the length
no byte is read. -/
def Obligations.TxfSendsFrame : Prop :=
  ∀ (s : State) (n : Byte),
    (128 ≤ n.toNat → txf n s = exec (.enc n) s) ∧
    (∀ p : List Byte, n.toNat < 128 → p.length = n.toNat → s.holds 3 p →
      ∃ t, txf n s = .next t ∧
        t.responses = s.responses ++ [⟨.ok, n.setWidth 32 + 5#32, Header.zero⟩] ++
          (wireFrame n p ((crc16 Config.crcPoly (n :: p)).extractLsb' 0 8) ((crc16 Config.crcPoly (n :: p)).extractLsb' 8 8)).map
            fun b => ⟨.ok, b.setWidth 32, Header.zero⟩)

/-! ### The header codec -/

/-- HDR.WR `h` (R175): its encoding, the four bytes of the slot, the last of them the zero pad byte; nothing else changes. -/
def Obligations.HdrWrWritesSlot : Prop :=
  ∀ (s : State) (h : BitVec 24), encode (.hdrWr h) = 0x4#4 ++ 0#4 ++ 0#8 ++ 0#8 ++ h ∧
    ∃ t, exec (.hdrWr h) s = .next t ∧ s.answersStoring t ⟨.ok, 0#32, Header.zero⟩ ∧
      t.holds 3 [h.extractLsb' 0 8, h.extractLsb' 8 8, h.extractLsb' 16 8, 0#8] ∧ s.sameOutside t 3 4

/-- HDR.RD (R171, R172): its encoding, the 24-bit header of `PB[0..2]`, its six fields, the version check, and the model fault at the lowest
unwritten byte; nothing is written. -/
def Obligations.HdrRdUnpacksHeader : Prop :=
  encode .hdrRd = 0x300000000000#48 ∧ ∀ s : State,
    (∀ b₀ b₁ b₂ : Byte, s.holds 3 [b₀, b₁, b₂] →
      ((b₂ ++ b₁ ++ b₀ : BitVec 24).extractLsb' 0 2 = Config.version → exec .hdrRd s = .next
        { s with responses := s.responses ++
            [⟨.ok, (b₂ ++ b₁ ++ b₀ : BitVec 24).setWidth 32,
              ⟨(b₂ ++ b₁ ++ b₀ : BitVec 24).extractLsb' 0 2, (b₂ ++ b₁ ++ b₀ : BitVec 24).extractLsb' 2 5,
               (b₂ ++ b₁ ++ b₀ : BitVec 24).extractLsb' 7 6, (b₂ ++ b₁ ++ b₀ : BitVec 24).extractLsb' 13 5,
               (b₂ ++ b₁ ++ b₀ : BitVec 24).extractLsb' 18 2, (b₂ ++ b₁ ++ b₀ : BitVec 24).extractLsb' 20 4⟩⟩] }) ∧
      ((b₂ ++ b₁ ++ b₀ : BitVec 24).extractLsb' 0 2 ≠ Config.version → exec .hdrRd s = .next
        { s with responses := s.responses ++ [⟨.versionError, 0#32, Header.zero⟩] })) ∧
    (∀ k, k < 3 → s.byte (3 + k) = none → (∀ j, j < k → s.byte (3 + j) ≠ none) →
      exec .hdrRd s = .fault (.unwrittenRead (3 + k)))

/-- Packing and unpacking a header are inverse (R174). -/
def Obligations.HeaderPackUnpackInverse : Prop :=
  (∀ h : Header, Header.unpack h.pack = h) ∧ ∀ w : BitVec 24, (Header.unpack w).pack = w

/-- Header round trip (R177): after HDR.WR `h`, HDR.RD in any later state whose bytes `PB[0..2]` are still those returns `h` and its
fields where the version is `P_VERSION`, and VERSION_ERROR with zeros otherwise. -/
def Obligations.HeaderRoundTrip : Prop :=
  ∀ (s t u : State) (h : BitVec 24), exec (.hdrWr h) s = .next t → t.sameBytes u 3 3 →
    (h.extractLsb' 0 2 = Config.version → exec .hdrRd u = .next
      { u with responses := u.responses ++ [⟨.ok, h.setWidth 32, Header.unpack h⟩] }) ∧
    (h.extractLsb' 0 2 ≠ Config.version → exec .hdrRd u = .next
      { u with responses := u.responses ++ [⟨.versionError, 0#32, Header.zero⟩] })

/-! ### The scalar accessors -/

/-- LD.U8 and LD.I8 (R191 to R193): encoding, range check, unwritten byte, value; nothing is written. -/
def Obligations.ByteLoads : Prop :=
  ∀ (s : State) (o : Byte),
    encode (.ldU8 o) = 0x5#4 ++ 0#4 ++ o ++ 0#32 ∧ encode (.ldI8 o) = 0x5#4 ++ 1#4 ++ o ++ 0#32 ∧
    (128 < o.toNat + 1 →
      exec (.ldU8 o) s = .next { s with responses := s.responses ++ [⟨.rangeFault, 0#32, Header.zero⟩] } ∧
      exec (.ldI8 o) s = .next { s with responses := s.responses ++ [⟨.rangeFault, 0#32, Header.zero⟩] }) ∧
    (o.toNat + 1 ≤ 128 → s.byte (3 + o.toNat) = none →
      exec (.ldU8 o) s = .fault (.unwrittenRead (3 + o.toNat)) ∧ exec (.ldI8 o) s = .fault (.unwrittenRead (3 + o.toNat))) ∧
    (∀ b : Byte, o.toNat + 1 ≤ 128 → s.byte (3 + o.toNat) = some b →
      exec (.ldU8 o) s = .next { s with responses := s.responses ++ [⟨.ok, b.zeroExtend 32, Header.zero⟩] } ∧
      exec (.ldI8 o) s = .next { s with responses := s.responses ++ [⟨.ok, b.signExtend 32, Header.zero⟩] })

/-- LD.U16 and LD.I16 (R191, R194, R195): encoding, range check, unwritten byte; the value is `PB[o+1] ++ PB[o]`, zero- or sign-extended. -/
def Obligations.HalfWordLoads : Prop :=
  ∀ (s : State) (o : Byte),
    encode (.ldU16 o) = 0x5#4 ++ 2#4 ++ o ++ 0#32 ∧ encode (.ldI16 o) = 0x5#4 ++ 3#4 ++ o ++ 0#32 ∧
    (128 < o.toNat + 2 →
      exec (.ldU16 o) s = .next { s with responses := s.responses ++ [⟨.rangeFault, 0#32, Header.zero⟩] } ∧
      exec (.ldI16 o) s = .next { s with responses := s.responses ++ [⟨.rangeFault, 0#32, Header.zero⟩] }) ∧
    (∀ k, o.toNat + 2 ≤ 128 → k < 2 → s.byte (3 + o.toNat + k) = none → (∀ j, j < k → s.byte (3 + o.toNat + j) ≠ none) →
      exec (.ldU16 o) s = .fault (.unwrittenRead (3 + o.toNat + k)) ∧
      exec (.ldI16 o) s = .fault (.unwrittenRead (3 + o.toNat + k))) ∧
    (∀ b₀ b₁ : Byte, o.toNat + 2 ≤ 128 → s.holds (3 + o.toNat) [b₀, b₁] →
      exec (.ldU16 o) s = .next { s with responses := s.responses ++ [⟨.ok, (b₁ ++ b₀).zeroExtend 32, Header.zero⟩] } ∧
      exec (.ldI16 o) s = .next { s with responses := s.responses ++ [⟨.ok, (b₁ ++ b₀).signExtend 32, Header.zero⟩] })

/-- LD.U32 and LD.I32 (R191, R196, R197): encoding, range check, unwritten byte; the value is `PB[o+3] ++ PB[o+2] ++ PB[o+1] ++ PB[o]`. -/
def Obligations.WordLoads : Prop :=
  ∀ (s : State) (o : Byte),
    encode (.ldU32 o) = 0x5#4 ++ 4#4 ++ o ++ 0#32 ∧ encode (.ldI32 o) = 0x5#4 ++ 5#4 ++ o ++ 0#32 ∧
    (128 < o.toNat + 4 →
      exec (.ldU32 o) s = .next { s with responses := s.responses ++ [⟨.rangeFault, 0#32, Header.zero⟩] } ∧
      exec (.ldI32 o) s = .next { s with responses := s.responses ++ [⟨.rangeFault, 0#32, Header.zero⟩] }) ∧
    (∀ k, o.toNat + 4 ≤ 128 → k < 4 → s.byte (3 + o.toNat + k) = none → (∀ j, j < k → s.byte (3 + o.toNat + j) ≠ none) →
      exec (.ldU32 o) s = .fault (.unwrittenRead (3 + o.toNat + k)) ∧
      exec (.ldI32 o) s = .fault (.unwrittenRead (3 + o.toNat + k))) ∧
    (∀ b₀ b₁ b₂ b₃ : Byte, o.toNat + 4 ≤ 128 → s.holds (3 + o.toNat) [b₀, b₁, b₂, b₃] →
      exec (.ldU32 o) s = .next { s with responses := s.responses ++ [⟨.ok, b₃ ++ b₂ ++ b₁ ++ b₀, Header.zero⟩] } ∧
      exec (.ldI32 o) s = .next { s with responses := s.responses ++ [⟨.ok, b₃ ++ b₂ ++ b₁ ++ b₀, Header.zero⟩] })

/-- ST.U8 and ST.I8 (R191, R198, R199): encoding, range check; the low byte of `v` at `PB[o]`, the same for both; nothing else changes. -/
def Obligations.ByteStores : Prop :=
  ∀ (s : State) (o : Byte) (v : Word),
    encode (.stU8 o v) = 0x6#4 ++ 0#4 ++ o ++ v ∧ encode (.stI8 o v) = 0x6#4 ++ 1#4 ++ o ++ v ∧
    (128 < o.toNat + 1 →
      exec (.stU8 o v) s = .next { s with responses := s.responses ++ [⟨.rangeFault, 0#32, Header.zero⟩] } ∧
      exec (.stI8 o v) s = .next { s with responses := s.responses ++ [⟨.rangeFault, 0#32, Header.zero⟩] }) ∧
    (o.toNat + 1 ≤ 128 → ∃ t, exec (.stU8 o v) s = .next t ∧ exec (.stI8 o v) s = .next t ∧
      s.answersStoring t ⟨.ok, 0#32, Header.zero⟩ ∧ t.holds (3 + o.toNat) [v.extractLsb' 0 8] ∧
      s.sameOutside t (3 + o.toNat) 1)

/-- ST.U16 and ST.I16 (R191, R200, R201): encoding, range check; the low two bytes of `v`, low byte first; nothing else changes. -/
def Obligations.HalfWordStores : Prop :=
  ∀ (s : State) (o : Byte) (v : Word),
    encode (.stU16 o v) = 0x6#4 ++ 2#4 ++ o ++ v ∧ encode (.stI16 o v) = 0x6#4 ++ 3#4 ++ o ++ v ∧
    (128 < o.toNat + 2 →
      exec (.stU16 o v) s = .next { s with responses := s.responses ++ [⟨.rangeFault, 0#32, Header.zero⟩] } ∧
      exec (.stI16 o v) s = .next { s with responses := s.responses ++ [⟨.rangeFault, 0#32, Header.zero⟩] }) ∧
    (o.toNat + 2 ≤ 128 → ∃ t, exec (.stU16 o v) s = .next t ∧ exec (.stI16 o v) s = .next t ∧
      s.answersStoring t ⟨.ok, 0#32, Header.zero⟩ ∧ t.holds (3 + o.toNat) [v.extractLsb' 0 8, v.extractLsb' 8 8] ∧
      s.sameOutside t (3 + o.toNat) 2)

/-- ST.U32 and ST.I32 (R191, R202, R203): encoding, range check; all four bytes of `v`, low byte first, or none; nothing else changes. -/
def Obligations.WordStores : Prop :=
  ∀ (s : State) (o : Byte) (v : Word),
    encode (.stU32 o v) = 0x6#4 ++ 4#4 ++ o ++ v ∧ encode (.stI32 o v) = 0x6#4 ++ 5#4 ++ o ++ v ∧
    (128 < o.toNat + 4 →
      exec (.stU32 o v) s = .next { s with responses := s.responses ++ [⟨.rangeFault, 0#32, Header.zero⟩] } ∧
      exec (.stI32 o v) s = .next { s with responses := s.responses ++ [⟨.rangeFault, 0#32, Header.zero⟩] }) ∧
    (o.toNat + 4 ≤ 128 → ∃ t, exec (.stU32 o v) s = .next t ∧ exec (.stI32 o v) s = .next t ∧
      s.answersStoring t ⟨.ok, 0#32, Header.zero⟩ ∧
      t.holds (3 + o.toNat) [v.extractLsb' 0 8, v.extractLsb' 8 8, v.extractLsb' 16 8, v.extractLsb' 24 8] ∧
      s.sameOutside t (3 + o.toNat) 4)

/-- Store then load (R204): after a successful store of width `w`, the loads of that width, in any later state whose stored bytes
are still those, return the low `8w` bits, zero- or sign-extended. -/
def Obligations.StoreThenLoad : Prop :=
  ∀ (s t u : State) (o : Byte) (v : Word),
    (o.toNat + 1 ≤ 128 → exec (.stU8 o v) s = .next t ∨ exec (.stI8 o v) s = .next t → t.sameBytes u (3 + o.toNat) 1 →
      exec (.ldU8 o) u = .next (u.answer .ok ((v.setWidth 8).zeroExtend 32)) ∧
      exec (.ldI8 o) u = .next (u.answer .ok ((v.setWidth 8).signExtend 32))) ∧
    (o.toNat + 2 ≤ 128 → exec (.stU16 o v) s = .next t ∨ exec (.stI16 o v) s = .next t → t.sameBytes u (3 + o.toNat) 2 →
      exec (.ldU16 o) u = .next (u.answer .ok ((v.setWidth 16).zeroExtend 32)) ∧
      exec (.ldI16 o) u = .next (u.answer .ok ((v.setWidth 16).signExtend 32))) ∧
    (o.toNat + 4 ≤ 128 → exec (.stU32 o v) s = .next t ∨ exec (.stI32 o v) s = .next t → t.sameBytes u (3 + o.toNat) 4 →
      exec (.ldU32 o) u = .next (u.answer .ok v) ∧ exec (.ldI32 o) u = .next (u.answer .ok v))

/-- Mixed widths (R53, R204): where LD.U32 `o` returns `v`, LD.U16 `o` returns its low half and LD.U8 `o+k` its byte `k`. -/
def Obligations.NarrowLoadsAreSlices : Prop :=
  ∀ (s : State) (o : Byte) (v : Word), exec (.ldU32 o) s = .next (s.answer .ok v) →
    exec (.ldU16 o) s = .next (s.answer .ok ((v.extractLsb' 0 16).zeroExtend 32)) ∧
    ∀ k, k < 4 → exec (.ldU8 (o + BitVec.ofNat 8 k)) s = .next (s.answer .ok ((v.extractLsb' (8 * k) 8).zeroExtend 32))
end

