-- ==== Sys2Proof/Laws/Decode.lean ====
section
/-! SUPPORT. The small lemmas of the command word's fields and of a row's match, which a proof about the decoder cites instead of unfolding bits. -/

namespace Sys2Proof

/-- The bits of an assembled word (R70). -/
theorem wordOf_getLsbD (f : CommandFields) (i : Nat) :
    (wordOf f).getLsbD i =
      if i < 32 then f.d.getLsbD i else if i < 40 then f.a.getLsbD (i - 32)
      else if i < 44 then f.fn.getLsbD (i - 40) else f.op.getLsbD (i - 44) := by
  have h₁ := BitVec.getLsbD_append (x := f.op ++ f.fn ++ f.a) (y := f.d) (i := i)
  have h₂ := BitVec.getLsbD_append (x := f.op ++ f.fn) (y := f.a) (i := i - 32)
  have h₃ := BitVec.getLsbD_append (x := f.op) (y := f.fn) (i := i - 32 - 8)
  rw [h₃] at h₂
  rw [h₂] at h₁
  refine h₁.trans ?_
  grind

/-- The fields of an assembled word are the fields it was assembled from (R70). -/
@[simp] theorem fieldsOf_wordOf (f : CommandFields) : fieldsOf (wordOf f) = f := by
  obtain ⟨op, fn, a, d⟩ := f
  simp only [fieldsOf, CommandFields.mk.injEq]
  refine ⟨?_, ?_, ?_, ?_⟩ <;> ext i hi <;> simp only [BitVec.getElem_extractLsb', wordOf_getLsbD] <;> grind

/-- Every word is assembled from its fields (R70). -/
@[simp] theorem wordOf_fieldsOf (c : CommandWord) : wordOf (fieldsOf c) = c := by
  apply BitVec.eq_of_getLsbD_eq
  intro i hi
  rw [wordOf_getLsbD]
  simp only [fieldsOf, BitVec.getLsbD_extractLsb']
  grind

theorem wordOf_injective {f g : CommandFields} (h : wordOf f = wordOf g) : f = g := by
  rw [← fieldsOf_wordOf f, ← fieldsOf_wordOf g, h]

/-- Masking a word masks its fields. -/
theorem wordOf_and (f g : CommandFields) :
    wordOf f &&& wordOf g = wordOf ⟨f.op &&& g.op, f.fn &&& g.fn, f.a &&& g.a, f.d &&& g.d⟩ := by
  apply BitVec.eq_of_getLsbD_eq
  intro i hi
  simp only [BitVec.getLsbD_and, wordOf_getLsbD]
  grind

/-- A row matches a word exactly when it matches it field by field (R75). -/
theorem rowMatches_iff (r : Row) (f : CommandFields) :
    rowMatches r (wordOf f) = true ↔
      f.op &&& (fieldsOf r.mask).op = (fieldsOf r.pattern).op ∧ f.fn &&& (fieldsOf r.mask).fn = (fieldsOf r.pattern).fn ∧
      f.a &&& (fieldsOf r.mask).a = (fieldsOf r.pattern).a ∧ f.d &&& (fieldsOf r.mask).d = (fieldsOf r.pattern).d := by
  rw [rowMatches, beq_iff_eq, ← wordOf_fieldsOf r.mask, wordOf_and, ← wordOf_fieldsOf r.pattern]
  constructor
  · intro h
    simpa only [CommandFields.ext_iff, fieldsOf_wordOf] using wordOf_injective h
  · rintro ⟨h₁, h₂, h₃, h₄⟩
    simp only [fieldsOf_wordOf] at h₁ h₂ h₃ h₄
    rw [h₁, h₂, h₃, h₄]

/-- The fields of an encoded command. -/
@[simp] theorem fieldsOf_encode (i : Instr) : fieldsOf (encode i) = encodeFields i := fieldsOf_wordOf _

/-! ### Masks that keep or drop a whole field -/

@[simp] theorem and_ones4 (v : BitVec 4) : v &&& 15#4 = v := BitVec.and_allOnes

@[simp] theorem and_ones8 (v : BitVec 8) : v &&& 255#8 = v := BitVec.and_allOnes

@[simp] theorem and_ones32 (v : BitVec 32) : v &&& 4294967295#32 = v := BitVec.and_allOnes

/-- The mask of HDR.WR's must-be-zero byte `D[31:24]` (R73). -/
theorem and_high8 (d : Word) : d &&& 0xFF000000#32 = 0#32 ↔ d.extractLsb' 24 8 = 0#8 := by
  have key : ∀ i : Nat, i < 32 → (0xFF000000#32).getLsbD i = decide (24 ≤ i) := by decide
  constructor <;> intro h
  · ext i hi
    have := congrArg (fun v => v.getLsbD (24 + i)) h
    have hk := key (24 + i) (by omega)
    simp only [BitVec.getLsbD_and, hk] at this
    simpa [BitVec.getElem_extractLsb'] using this
  · apply BitVec.eq_of_getLsbD_eq
    intro i hi
    have hk := key i hi
    simp only [BitVec.getLsbD_and, hk]
    by_cases h24 : 24 ≤ i
    · have := congrArg (fun v => v.getLsbD (i - 24)) h
      simp only [BitVec.getLsbD_extractLsb', show 24 + (i - 24) = i by omega] at this
      simp [show i - 24 < 8 by omega] at this
      simp [h24, this]
    · simp [h24]

/-- A packed header leaves `D[31:24]` zero (R73). -/
@[simp] theorem setWidth_header_high (h : BitVec 24) : (h.setWidth 32).extractLsb' 24 8 = 0#8 := by
  ext i hi
  simp [BitVec.getLsbD_of_ge]

/-- A data word whose high byte is zero is its low 24 bits (R73, R75). -/
theorem setWidth_header_low {d : Word} (h : d.extractLsb' 24 8 = 0#8) : (d.setWidth 24).setWidth 32 = d := by
  ext i hi
  have := congrArg (fun v => v.getLsbD (i - 24)) h
  simp at this
  by_cases h24 : i < 24
  · simp [h24]; grind
  · simp [h24, show i - 24 < 8 by omega, show 24 + (i - 24) = i by omega] at this ⊢; grind

/-! ### The decoder -/

/-- What a word decodes to comes from a row that matches it (R75). -/
theorem decode_eq_some {c : CommandWord} {i : Instr} (h : decode c = some i) :
    ∃ r ∈ opcodeTable, rowMatches r c = true ∧ i = r.build (fieldsOf c).a (fieldsOf c).d := by
  rw [decode, Option.map_eq_some_iff] at h
  obtain ⟨r, hr, rfl⟩ := h
  exact ⟨r, List.mem_of_find?_eq_some hr, List.find?_some (p := (rowMatches · c)) hr, rfl⟩

theorem find?_cons_ite {α : Type} (p : α → Bool) (x : α) (xs : List α) :
    (x :: xs).find? p = if p x = true then some x else xs.find? p := by
  cases h : p x <;> simp [h]

/-- `rowMatches_iff` with the row's fields named. -/
theorem rowMatches_fields {m p : CommandWord} {build : Byte → Word → Instr} {mf pf : CommandFields}
    (hm : fieldsOf m = mf) (hp : fieldsOf p = pf) (f : CommandFields) :
    rowMatches ⟨m, p, build⟩ (wordOf f) = true ↔
      f.op &&& mf.op = pf.op ∧ f.fn &&& mf.fn = pf.fn ∧ f.a &&& mf.a = pf.a ∧ f.d &&& mf.d = pf.d := by
  rw [rowMatches_iff, hm, hp]

/-- The decoder field by field (R71 to R76): one case for each row of the table. -/
theorem decode_wordOf (f : CommandFields) :
    decode (wordOf f) =
      if f.op = 0#4 ∧ f.fn = 0#4 ∧ f.a = 0#8 ∧ f.d = 0#32 then some .init
      else if f.op = 1#4 ∧ f.fn = 0#4 ∧ f.d = 0#32 then some (.rxb f.a)
      else if f.op = 2#4 ∧ f.fn = 0#4 ∧ f.d = 0#32 then some (.enc f.a)
      else if f.op = 3#4 ∧ f.fn = 0#4 ∧ f.a = 0#8 ∧ f.d = 0#32 then some .hdrRd
      else if f.op = 4#4 ∧ f.fn = 0#4 ∧ f.a = 0#8 ∧ f.d.extractLsb' 24 8 = 0#8 then some (.hdrWr (f.d.setWidth 24))
      else if f.op = 5#4 ∧ f.fn = 0#4 ∧ f.d = 0#32 then some (.ldU8 f.a)
      else if f.op = 5#4 ∧ f.fn = 1#4 ∧ f.d = 0#32 then some (.ldI8 f.a)
      else if f.op = 5#4 ∧ f.fn = 2#4 ∧ f.d = 0#32 then some (.ldU16 f.a)
      else if f.op = 5#4 ∧ f.fn = 3#4 ∧ f.d = 0#32 then some (.ldI16 f.a)
      else if f.op = 5#4 ∧ f.fn = 4#4 ∧ f.d = 0#32 then some (.ldU32 f.a)
      else if f.op = 5#4 ∧ f.fn = 5#4 ∧ f.d = 0#32 then some (.ldI32 f.a)
      else if f.op = 6#4 ∧ f.fn = 0#4 then some (.stU8 f.a f.d)
      else if f.op = 6#4 ∧ f.fn = 1#4 then some (.stI8 f.a f.d)
      else if f.op = 6#4 ∧ f.fn = 2#4 then some (.stU16 f.a f.d)
      else if f.op = 6#4 ∧ f.fn = 3#4 then some (.stI16 f.a f.d)
      else if f.op = 6#4 ∧ f.fn = 4#4 then some (.stU32 f.a f.d)
      else if f.op = 6#4 ∧ f.fn = 5#4 then some (.stI32 f.a f.d)
      else if f.op = 7#4 ∧ f.fn = 0#4 ∧ f.d = 0#32 then some (.frd f.a)
      else none := by
  simp only [decode, opcodeTable, List.cons_append, List.nil_append, find?_cons_ite, List.find?_nil, fieldsOf_wordOf,
    apply_ite (Option.map _), Option.map_some, Option.map_none]
  simp only [
    @rowMatches_fields 0xFFFFFFFFFFFF#48 0x000000000000#48 _ ⟨15#4, 15#4, 255#8, 4294967295#32⟩
      ⟨0#4, 0#4, 0#8, 0#32⟩ (by decide) (by decide),
    @rowMatches_fields 0xFF00FFFFFFFF#48 0x100000000000#48 _ ⟨15#4, 15#4, 0#8, 4294967295#32⟩
      ⟨1#4, 0#4, 0#8, 0#32⟩ (by decide) (by decide),
    @rowMatches_fields 0xFF00FFFFFFFF#48 0x200000000000#48 _ ⟨15#4, 15#4, 0#8, 4294967295#32⟩
      ⟨2#4, 0#4, 0#8, 0#32⟩ (by decide) (by decide),
    @rowMatches_fields 0xFFFFFFFFFFFF#48 0x300000000000#48 _ ⟨15#4, 15#4, 255#8, 4294967295#32⟩
      ⟨3#4, 0#4, 0#8, 0#32⟩ (by decide) (by decide),
    @rowMatches_fields 0xFFFFFF000000#48 0x400000000000#48 _ ⟨15#4, 15#4, 255#8, 0xFF000000#32⟩
      ⟨4#4, 0#4, 0#8, 0#32⟩ (by decide) (by decide),
    @rowMatches_fields 0xFF00FFFFFFFF#48 0x500000000000#48 _ ⟨15#4, 15#4, 0#8, 4294967295#32⟩
      ⟨5#4, 0#4, 0#8, 0#32⟩ (by decide) (by decide),
    @rowMatches_fields 0xFF00FFFFFFFF#48 0x510000000000#48 _ ⟨15#4, 15#4, 0#8, 4294967295#32⟩
      ⟨5#4, 1#4, 0#8, 0#32⟩ (by decide) (by decide),
    @rowMatches_fields 0xFF00FFFFFFFF#48 0x520000000000#48 _ ⟨15#4, 15#4, 0#8, 4294967295#32⟩
      ⟨5#4, 2#4, 0#8, 0#32⟩ (by decide) (by decide),
    @rowMatches_fields 0xFF00FFFFFFFF#48 0x530000000000#48 _ ⟨15#4, 15#4, 0#8, 4294967295#32⟩
      ⟨5#4, 3#4, 0#8, 0#32⟩ (by decide) (by decide),
    @rowMatches_fields 0xFF00FFFFFFFF#48 0x540000000000#48 _ ⟨15#4, 15#4, 0#8, 4294967295#32⟩
      ⟨5#4, 4#4, 0#8, 0#32⟩ (by decide) (by decide),
    @rowMatches_fields 0xFF00FFFFFFFF#48 0x550000000000#48 _ ⟨15#4, 15#4, 0#8, 4294967295#32⟩
      ⟨5#4, 5#4, 0#8, 0#32⟩ (by decide) (by decide),
    @rowMatches_fields 0xFF0000000000#48 0x600000000000#48 _ ⟨15#4, 15#4, 0#8, 0#32⟩ ⟨6#4, 0#4, 0#8, 0#32⟩ (by decide) (by decide),
    @rowMatches_fields 0xFF0000000000#48 0x610000000000#48 _ ⟨15#4, 15#4, 0#8, 0#32⟩ ⟨6#4, 1#4, 0#8, 0#32⟩ (by decide) (by decide),
    @rowMatches_fields 0xFF0000000000#48 0x620000000000#48 _ ⟨15#4, 15#4, 0#8, 0#32⟩ ⟨6#4, 2#4, 0#8, 0#32⟩ (by decide) (by decide),
    @rowMatches_fields 0xFF0000000000#48 0x630000000000#48 _ ⟨15#4, 15#4, 0#8, 0#32⟩ ⟨6#4, 3#4, 0#8, 0#32⟩ (by decide) (by decide),
    @rowMatches_fields 0xFF0000000000#48 0x640000000000#48 _ ⟨15#4, 15#4, 0#8, 0#32⟩ ⟨6#4, 4#4, 0#8, 0#32⟩ (by decide) (by decide),
    @rowMatches_fields 0xFF0000000000#48 0x650000000000#48 _ ⟨15#4, 15#4, 0#8, 0#32⟩ ⟨6#4, 5#4, 0#8, 0#32⟩ (by decide) (by decide),
    @rowMatches_fields 0xFF00FFFFFFFF#48 0x700000000000#48 _ ⟨15#4, 15#4, 0#8, 4294967295#32⟩
      ⟨7#4, 0#4, 0#8, 0#32⟩ (by decide) (by decide),
    and_ones4, and_ones8, and_ones32, and_high8, BitVec.and_zero, true_and, and_true]

end Sys2Proof
end

