-- ==== Sys2Proof/Laws/Memory.lean ====
section
/-! SUPPORT. The laws of the frame buffer's operations: read after write, the canonical form kept, runs of bytes, and little-endian assembly. -/

namespace Sys2Proof.Machine

/-! ### One byte -/

@[simp] theorem Memory.read_nil (a : Nat) : Memory.read [] a = none := rfl

@[simp] theorem Memory.read_write_same (m : List Host.Cell) (a : Nat) (b : Byte) :
    Memory.read (Memory.write m a b) a = some b := by
  induction m with
  | nil => simp [Memory.write, Memory.read]
  | cons c m ih =>
    obtain ⟨k, v⟩ := c
    simp only [Memory.write]
    split_ifs with h₁ h₂ <;> simp [Memory.read, *]

theorem Memory.read_write_other (m : List Host.Cell) {a k : Nat} (b : Byte) (h : k ≠ a) :
    Memory.read (Memory.write m a b) k = Memory.read m k := by
  induction m with
  | nil => simp [Memory.write, Memory.read, h]
  | cons c m ih =>
    obtain ⟨j, v⟩ := c
    simp only [Memory.write]
    split_ifs with h₁ h₂
    · simp [Memory.read, h]
    · subst h₂; simp [Memory.read, h]
    · simp [Memory.read, ih]

/-- Read after a write, both cases at once. -/
theorem Memory.read_write (m : List Host.Cell) (a k : Nat) (b : Byte) :
    Memory.read (Memory.write m a b) k = if k = a then some b else Memory.read m k := by
  split_ifs with h
  · subst h; simp
  · exact Memory.read_write_other m b h

/-! ### The canonical form -/

theorem Memory.wf_nil : Memory.wf [] := by decide

theorem Memory.mem_write {m : List Host.Cell} {a : Nat} {b : Byte} {c : Host.Cell}
    (h : c ∈ Memory.write m a b) : c = (a, b) ∨ c ∈ m := by
  induction m with
  | nil => simpa [Memory.write] using h
  | cons d m ih =>
    obtain ⟨k, v⟩ := d
    simp only [Memory.write] at h
    split_ifs at h
    · simpa using h
    · rcases List.mem_cons.1 h with h | h
      · exact .inl h
      · exact .inr (List.mem_cons_of_mem _ h)
    · rcases List.mem_cons.1 h with h | h
      · exact .inr (h ▸ List.mem_cons_self)
      · exact (ih h).imp id (List.mem_cons_of_mem _)

/-- A write inside the buffer keeps the canonical form. -/
theorem Memory.wf_write {m : List Host.Cell} {a : Nat} (b : Byte) (hm : Memory.wf m) (ha : a < 133) :
    Memory.wf (Memory.write m a b) := by
  refine ⟨?_, fun c hc => ?_⟩
  · obtain ⟨hp, -⟩ := hm
    induction m with
    | nil => simp [Memory.write]
    | cons c m ih =>
      obtain ⟨k, v⟩ := c
      obtain ⟨hk, hp'⟩ := List.pairwise_cons.1 hp
      simp only [Memory.write]
      split_ifs with h₁ h₂
      · refine List.pairwise_cons.2 ⟨fun d hd => ?_, hp⟩
        rcases List.mem_cons.1 hd with rfl | hd
        · exact h₁
        · exact h₁.trans (hk d hd)
      · subst h₂; exact List.pairwise_cons.2 ⟨hk, hp'⟩
      · refine List.pairwise_cons.2 ⟨fun d hd => ?_, ih hp'⟩
        rcases Memory.mem_write hd with rfl | hd
        · show k < a; omega
        · exact hk d hd
  · rcases Memory.mem_write hc with rfl | hc
    · exact ha
    · exact hm.2 c hc

theorem Memory.read_eq_none_of_lt {m : List Host.Cell} {a : Nat} (h : ∀ c ∈ m, a < c.1) : Memory.read m a = none := by
  induction m with
  | nil => rfl
  | cons c m ih =>
    obtain ⟨k, v⟩ := c
    have hk : a < k := h (k, v) List.mem_cons_self
    simp [Memory.read, Nat.ne_of_lt hk, ih fun d hd => h d (List.mem_cons_of_mem _ hd)]

/-- Outside the buffer a canonical memory holds nothing. -/
theorem Memory.read_eq_none_of_wf {m : List Host.Cell} (hm : Memory.wf m) {a : Nat} (ha : 133 ≤ a) :
    Memory.read m a = none := by
  obtain ⟨-, hm⟩ := hm
  induction m with
  | nil => rfl
  | cons c m ih =>
    obtain ⟨k, v⟩ := c
    have hk : k < 133 := hm (k, v) List.mem_cons_self
    simp [Memory.read, show a ≠ k by omega, ih fun d hd => hm d (List.mem_cons_of_mem _ hd)]

/-- Canonical memories that read the same are the same data. -/
theorem Memory.ext_of_wf {m n : List Host.Cell} (hm : Memory.wf m) (hn : Memory.wf n)
    (h : ∀ a, Memory.read m a = Memory.read n a) : m = n := by
  obtain ⟨hm, -⟩ := hm
  obtain ⟨hn, -⟩ := hn
  induction m generalizing n with
  | nil =>
    cases n with
    | nil => rfl
    | cons c n => obtain ⟨k, v⟩ := c; simpa [Memory.read] using h k
  | cons c m ih =>
    obtain ⟨k, v⟩ := c
    obtain ⟨hk, hm'⟩ := List.pairwise_cons.1 hm
    cases n with
    | nil => simpa [Memory.read] using h k
    | cons d n =>
      obtain ⟨j, w⟩ := d
      obtain ⟨hj, hn'⟩ := List.pairwise_cons.1 hn
      have hkj : k = j := by
        rcases Nat.lt_trichotomy k j with hlt | heq | hgt
        · have := h k
          rw [Memory.read, if_pos rfl, Memory.read, if_neg (Nat.ne_of_lt hlt),
            Memory.read_eq_none_of_lt fun d hd => hlt.trans (hj d hd)] at this
          cases this
        · exact heq
        · have := h j
          rw [Memory.read, if_neg (Nat.ne_of_lt hgt), Memory.read, if_pos rfl,
            Memory.read_eq_none_of_lt fun d hd => Nat.lt_trans hgt (hk d hd)] at this
          cases this
      subst hkj
      have hv : v = w := by simpa [Memory.read] using h k
      subst hv
      congr 1
      refine ih (n := n) (fun a => ?_) hm' hn'
      by_cases ha : a = k
      · subst ha
        rw [Memory.read_eq_none_of_lt hk, Memory.read_eq_none_of_lt hj]
      · simpa [Memory.read, ha] using h a

/-! ### Runs of bytes -/

/-- A run of reads answers bytes exactly when each of them is written. -/
theorem Memory.readRun_eq_ok {m : List Host.Cell} {a n : Nat} {bs : List Byte} :
    Memory.readRun m a n = .ok bs ↔
      bs.length = n ∧ ∀ k, (h : k < bs.length) → Memory.read m (a + k) = some bs[k] := by
  induction n generalizing a bs with
  | zero => cases bs <;> simp [Memory.readRun]
  | succ n ih =>
    cases hr : Memory.read m a with
    | none =>
      simp only [Memory.readRun, hr, reduceCtorEq, false_iff, not_and, not_forall]
      exact fun hl => ⟨0, by omega, by simp [hr]⟩
    | some b =>
      cases bs with
      | nil => cases hrr : Memory.readRun m (a + 1) n <;> simp [Memory.readRun, hr, hrr]
      | cons c bs =>
        have key : Memory.readRun m a (n + 1) = .ok (c :: bs) ↔ b = c ∧ Memory.readRun m (a + 1) n = .ok bs := by
          cases hrr : Memory.readRun m (a + 1) n <;> simp [Memory.readRun, hr, hrr]
        rw [key, ih]
        constructor
        · rintro ⟨rfl, hl, hk⟩
          refine ⟨by simp [hl], fun k hlt => ?_⟩
          cases k with
          | zero => simpa using hr
          | succ k => simpa [Nat.add_assoc, Nat.add_comm 1 k] using hk k (by simpa using hlt)
        · rintro ⟨hl, hk⟩
          refine ⟨Option.some.inj (hr.symm.trans (hk 0 (by simp))), by simpa using hl, fun k hlt => ?_⟩
          rw [Nat.add_assoc, Nat.add_comm 1 k]
          exact hk (k + 1) (by simpa using hlt)

/-- A run of reads faults exactly on the lowest unwritten address. -/
theorem Memory.readRun_eq_error {m : List Host.Cell} {a n : Nat} {f : Fault} :
    Memory.readRun m a n = .error f ↔
      ∃ k, k < n ∧ f = .unwrittenRead (a + k) ∧ Memory.read m (a + k) = none ∧
        ∀ j, j < k → Memory.read m (a + j) ≠ none := by
  induction n generalizing a with
  | zero => simp [Memory.readRun]
  | succ n ih =>
    cases hr : Memory.read m a with
    | none =>
      simp only [Memory.readRun, hr, Except.error.injEq]
      constructor
      · rintro rfl
        exact ⟨0, by omega, rfl, hr, fun j hj => absurd hj (Nat.not_lt_zero j)⟩
      · rintro ⟨k, -, rfl, -, hlow⟩
        rcases Nat.eq_zero_or_pos k with rfl | hpos
        · rfl
        · exact absurd hr (hlow 0 hpos)
    | some b =>
      have key : Memory.readRun m a (n + 1) = .error f ↔ Memory.readRun m (a + 1) n = .error f := by
        cases hrr : Memory.readRun m (a + 1) n <;> simp [Memory.readRun, hr, hrr]
      rw [key, ih]
      constructor
      · rintro ⟨k, hk, hf, hn, hlow⟩
        refine ⟨k + 1, by omega, by rw [hf]; congr 1; omega, by rw [← hn]; congr 1; omega, fun j hj => ?_⟩
        cases j with
        | zero => simp [hr]
        | succ j =>
          have := hlow j (by omega)
          rwa [Nat.add_assoc, Nat.add_comm 1 j] at this
      · rintro ⟨k, hk, hf, hn, hlow⟩
        cases k with
        | zero => simp [hr] at hn
        | succ k =>
          refine ⟨k, by omega, by rw [hf]; congr 1; omega, by rw [← hn]; congr 1; omega, fun j hj => ?_⟩
          have := hlow (j + 1) (by omega)
          rwa [Nat.add_comm j 1, ← Nat.add_assoc] at this

@[simp] theorem Memory.writeRun_nil (m : List Host.Cell) (a : Nat) : Memory.writeRun m a [] = m := rfl

theorem Memory.read_writeRun_outside {m : List Host.Cell} {a k : Nat} {bs : List Byte}
    (h : k < a ∨ a + bs.length ≤ k) : Memory.read (Memory.writeRun m a bs) k = Memory.read m k := by
  induction bs generalizing m a with
  | nil => rfl
  | cons b bs ih =>
    simp only [List.length_cons] at h
    rw [Memory.writeRun, ih (by omega), Memory.read_write_other _ _ (by omega)]

theorem Memory.read_writeRun_inside {m : List Host.Cell} {a k : Nat} {bs : List Byte} (h : k < bs.length) :
    Memory.read (Memory.writeRun m a bs) (a + k) = some bs[k] := by
  induction bs generalizing m a k with
  | nil => simp at h
  | cons b bs ih =>
    cases k with
    | zero => rw [Memory.writeRun, Memory.read_writeRun_outside (by omega)]; simp
    | succ k =>
      rw [Memory.writeRun, show a + (k + 1) = a + 1 + k by omega, ih (by simpa using h)]
      simp

/-- Bytes never become unwritten again (R58). -/
theorem Memory.read_writeRun_ne_none {m : List Host.Cell} {a k : Nat} {bs : List Byte}
    (h : Memory.read m k ≠ none) : Memory.read (Memory.writeRun m a bs) k ≠ none := by
  by_cases hk : k < a ∨ a + bs.length ≤ k
  · rwa [Memory.read_writeRun_outside hk]
  · obtain ⟨j, rfl⟩ : ∃ j, k = a + j := ⟨k - a, by omega⟩
    rw [Memory.read_writeRun_inside (by omega)]
    simp

/-- A run of writes inside the buffer keeps the canonical form. -/
theorem Memory.wf_writeRun {m : List Host.Cell} {a : Nat} {bs : List Byte} (hm : Memory.wf m)
    (h : a + bs.length ≤ 133) : Memory.wf (Memory.writeRun m a bs) := by
  induction bs generalizing m a with
  | nil => exact hm
  | cons b bs ih =>
    simp only [List.length_cons] at h
    exact ih (Memory.wf_write b hm (by omega)) (by omega)

/-! ### Little-endian assembly -/

@[simp] theorem leBytes_length {w : Nat} (n : Nat) (v : BitVec w) : (leBytes n v).length = n := by
  induction n generalizing v with
  | zero => rfl
  | succ n ih => simp [leBytes, ih]

/-- Byte `k` of a value is `v[8k+7:8k]` (R55). -/
theorem leBytes_getElem {w : Nat} (n : Nat) (v : BitVec w) (k : Nat) (h : k < (leBytes n v).length) :
    (leBytes n v)[k] = v.extractLsb' (8 * k) 8 := by
  induction n generalizing v k with
  | zero => simp [leBytes] at h
  | succ n ih =>
    cases k with
    | zero => ext i hi; simp [leBytes]
    | succ k =>
      simp only [leBytes, List.getElem_cons_succ]
      rw [ih]
      ext i hi
      simp only [BitVec.getElem_extractLsb', BitVec.getLsbD_ushiftRight]
      congr 1; omega

/-- One byte as a value. -/
theorem leValue_one (b₀ : Byte) : leValue 8 [b₀] = b₀ := by
  simp [leValue]

/-- Two bytes as a value: `PB[o+1] ++ PB[o]`. -/
theorem leValue_two (b₀ b₁ : Byte) : leValue 16 [b₀, b₁] = b₁ ++ b₀ := by
  ext i hi
  simp only [leValue, BitVec.getElem_or, BitVec.getElem_setWidth, BitVec.getElem_shiftLeft]
  by_cases h : i < 8 <;> simp [h, BitVec.getLsbD_of_ge, Nat.le_of_not_lt] <;> grind

/-- Three bytes as a value. -/
theorem leValue_three (b₀ b₁ b₂ : Byte) : leValue 24 [b₀, b₁, b₂] = b₂ ++ b₁ ++ b₀ := by
  ext i hi
  simp only [leValue, BitVec.getElem_or, BitVec.getElem_setWidth, BitVec.getElem_shiftLeft]
  grind

/-- Four bytes as a value. -/
theorem leValue_four (b₀ b₁ b₂ b₃ : Byte) : leValue 32 [b₀, b₁, b₂, b₃] = b₃ ++ b₂ ++ b₁ ++ b₀ := by
  ext i hi
  simp only [leValue, BitVec.getElem_or, BitVec.getElem_setWidth, BitVec.getElem_shiftLeft]
  grind

/-! ### Extension -/

@[simp] theorem extendTo32_unsigned {w : Nat} (v : BitVec w) : extendTo32 false v = v.zeroExtend 32 := rfl

@[simp] theorem extendTo32_signed {w : Nat} (v : BitVec w) : extendTo32 true v = v.signExtend 32 := rfl

/-- A 32-bit value is itself, whatever the load's signedness (R72, R197). -/
@[simp] theorem extendTo32_word (signed : Bool) (v : Word) : extendTo32 signed v = v := by
  cases signed <;> simp

end Sys2Proof.Machine
end

