-- ==== Sys2Proof/Laws/State.lean ====
section
/-! SUPPORT. One lemma for each field of State under each named update, and for the buffer's bytes under the updates that leave the buffer alone, so that no proof unfolds a record update. -/

namespace Sys2Proof.Machine

/-! ### writeBytes -/

@[simp] theorem State.writeBytes_state (s : State) (a : Nat) (bs : List Byte) : (s.writeBytes a bs).state = s.state := rfl
@[simp] theorem State.writeBytes_len (s : State) (a : Nat) (bs : List Byte) : (s.writeBytes a bs).len = s.len := rfl
@[simp] theorem State.writeBytes_idx (s : State) (a : Nat) (bs : List Byte) : (s.writeBytes a bs).idx = s.idx := rfl
@[simp] theorem State.writeBytes_crc (s : State) (a : Nat) (bs : List Byte) : (s.writeBytes a bs).crc = s.crc := rfl
@[simp] theorem State.writeBytes_fr (s : State) (a : Nat) (bs : List Byte) : (s.writeBytes a bs).fr = Memory.writeRun s.fr a bs := rfl
@[simp] theorem State.writeBytes_pending (s : State) (a : Nat) (bs : List Byte) : (s.writeBytes a bs).pending = s.pending := rfl
@[simp] theorem State.writeBytes_responses (s : State) (a : Nat) (bs : List Byte) : (s.writeBytes a bs).responses = s.responses := rfl
@[simp] theorem State.writeBytes_byte (s : State) (a : Nat) (bs : List Byte) (k : Nat) : (s.writeBytes a bs).byte k = Memory.read (Memory.writeRun s.fr a bs) k := rfl

/-! ### respond -/

@[simp] theorem State.respond_state (s : State) (r : Response) : (s.respond r).state = s.state := rfl
@[simp] theorem State.respond_len (s : State) (r : Response) : (s.respond r).len = s.len := rfl
@[simp] theorem State.respond_idx (s : State) (r : Response) : (s.respond r).idx = s.idx := rfl
@[simp] theorem State.respond_crc (s : State) (r : Response) : (s.respond r).crc = s.crc := rfl
@[simp] theorem State.respond_fr (s : State) (r : Response) : (s.respond r).fr = s.fr := rfl
@[simp] theorem State.respond_pending (s : State) (r : Response) : (s.respond r).pending = s.pending := rfl
@[simp] theorem State.respond_responses (s : State) (r : Response) : (s.respond r).responses = s.responses ++ [r] := rfl
@[simp] theorem State.respond_byte (s : State) (r : Response) (k : Nat) : (s.respond r).byte k = s.byte k := rfl

/-! ### answer -/

@[simp] theorem State.answer_state (s : State) (st : Status) (v : Word) : (s.answer st v).state = s.state := rfl
@[simp] theorem State.answer_len (s : State) (st : Status) (v : Word) : (s.answer st v).len = s.len := rfl
@[simp] theorem State.answer_idx (s : State) (st : Status) (v : Word) : (s.answer st v).idx = s.idx := rfl
@[simp] theorem State.answer_crc (s : State) (st : Status) (v : Word) : (s.answer st v).crc = s.crc := rfl
@[simp] theorem State.answer_fr (s : State) (st : Status) (v : Word) : (s.answer st v).fr = s.fr := rfl
@[simp] theorem State.answer_pending (s : State) (st : Status) (v : Word) : (s.answer st v).pending = s.pending := rfl
@[simp] theorem State.answer_responses (s : State) (st : Status) (v : Word) : (s.answer st v).responses = s.responses ++ [⟨st, v, Header.zero⟩] := rfl
@[simp] theorem State.answer_byte (s : State) (st : Status) (v : Word) (k : Nat) : (s.answer st v).byte k = s.byte k := rfl

/-! ### issueFirst -/

@[simp] theorem State.issueFirst_state (s : State) (c : CommandWord) : (s.issueFirst c).state = s.state := rfl
@[simp] theorem State.issueFirst_len (s : State) (c : CommandWord) : (s.issueFirst c).len = s.len := rfl
@[simp] theorem State.issueFirst_idx (s : State) (c : CommandWord) : (s.issueFirst c).idx = s.idx := rfl
@[simp] theorem State.issueFirst_crc (s : State) (c : CommandWord) : (s.issueFirst c).crc = s.crc := rfl
@[simp] theorem State.issueFirst_fr (s : State) (c : CommandWord) : (s.issueFirst c).fr = s.fr := rfl
@[simp] theorem State.issueFirst_pending (s : State) (c : CommandWord) : (s.issueFirst c).pending = c :: s.pending := rfl
@[simp] theorem State.issueFirst_responses (s : State) (c : CommandWord) : (s.issueFirst c).responses = s.responses := rfl
@[simp] theorem State.issueFirst_byte (s : State) (c : CommandWord) (k : Nat) : (s.issueFirst c).byte k = s.byte k := rfl

/-! ### moveTo -/

@[simp] theorem State.moveTo_state (s : State) (st : DecoderState) : (s.moveTo st).state = st := rfl
@[simp] theorem State.moveTo_len (s : State) (st : DecoderState) : (s.moveTo st).len = s.len := rfl
@[simp] theorem State.moveTo_idx (s : State) (st : DecoderState) : (s.moveTo st).idx = s.idx := rfl
@[simp] theorem State.moveTo_crc (s : State) (st : DecoderState) : (s.moveTo st).crc = s.crc := rfl
@[simp] theorem State.moveTo_fr (s : State) (st : DecoderState) : (s.moveTo st).fr = s.fr := rfl
@[simp] theorem State.moveTo_pending (s : State) (st : DecoderState) : (s.moveTo st).pending = s.pending := rfl
@[simp] theorem State.moveTo_responses (s : State) (st : DecoderState) : (s.moveTo st).responses = s.responses := rfl
@[simp] theorem State.moveTo_byte (s : State) (st : DecoderState) (k : Nat) : (s.moveTo st).byte k = s.byte k := rfl

/-! ### feedCrc -/

@[simp] theorem State.feedCrc_state (poly : Half) (s : State) (b : Byte) : (State.feedCrc poly s b).state = s.state := rfl
@[simp] theorem State.feedCrc_len (poly : Half) (s : State) (b : Byte) : (State.feedCrc poly s b).len = s.len := rfl
@[simp] theorem State.feedCrc_idx (poly : Half) (s : State) (b : Byte) : (State.feedCrc poly s b).idx = s.idx := rfl
@[simp] theorem State.feedCrc_crc (poly : Half) (s : State) (b : Byte) : (State.feedCrc poly s b).crc = crc16Upd poly s.crc b := rfl
@[simp] theorem State.feedCrc_fr (poly : Half) (s : State) (b : Byte) : (State.feedCrc poly s b).fr = s.fr := rfl
@[simp] theorem State.feedCrc_pending (poly : Half) (s : State) (b : Byte) : (State.feedCrc poly s b).pending = s.pending := rfl
@[simp] theorem State.feedCrc_responses (poly : Half) (s : State) (b : Byte) : (State.feedCrc poly s b).responses = s.responses := rfl
@[simp] theorem State.feedCrc_byte (poly : Half) (s : State) (b : Byte) (k : Nat) : (State.feedCrc poly s b).byte k = s.byte k := rfl

/-! ### startFrame -/

@[simp] theorem State.startFrame_state (poly : Half) (s : State) (b : Byte) : (State.startFrame poly s b).state = s.state := rfl
@[simp] theorem State.startFrame_len (poly : Half) (s : State) (b : Byte) : (State.startFrame poly s b).len = b := rfl
@[simp] theorem State.startFrame_idx (poly : Half) (s : State) (b : Byte) : (State.startFrame poly s b).idx = 0#8 := rfl
@[simp] theorem State.startFrame_crc (poly : Half) (s : State) (b : Byte) : (State.startFrame poly s b).crc = crc16Upd poly Config.crcInit b := rfl
@[simp] theorem State.startFrame_fr (poly : Half) (s : State) (b : Byte) : (State.startFrame poly s b).fr = s.fr := rfl
@[simp] theorem State.startFrame_pending (poly : Half) (s : State) (b : Byte) : (State.startFrame poly s b).pending = s.pending := rfl
@[simp] theorem State.startFrame_responses (poly : Half) (s : State) (b : Byte) : (State.startFrame poly s b).responses = s.responses := rfl
@[simp] theorem State.startFrame_byte (poly : Half) (s : State) (b : Byte) (k : Nat) : (State.startFrame poly s b).byte k = s.byte k := rfl

/-! ### bumpIdx -/

@[simp] theorem State.bumpIdx_state (s : State) : s.bumpIdx.state = s.state := rfl
@[simp] theorem State.bumpIdx_len (s : State) : s.bumpIdx.len = s.len := rfl
@[simp] theorem State.bumpIdx_idx (s : State) : s.bumpIdx.idx = s.idx + 1#8 := rfl
@[simp] theorem State.bumpIdx_crc (s : State) : s.bumpIdx.crc = s.crc := rfl
@[simp] theorem State.bumpIdx_fr (s : State) : s.bumpIdx.fr = s.fr := rfl
@[simp] theorem State.bumpIdx_pending (s : State) : s.bumpIdx.pending = s.pending := rfl
@[simp] theorem State.bumpIdx_responses (s : State) : s.bumpIdx.responses = s.responses := rfl
@[simp] theorem State.bumpIdx_byte (s : State) (k : Nat) : s.bumpIdx.byte k = s.byte k := rfl

/-! ### initDecoder -/

@[simp] theorem State.initDecoder_state (s : State) : s.initDecoder.state = .sync1 := rfl
@[simp] theorem State.initDecoder_len (s : State) : s.initDecoder.len = 0#8 := rfl
@[simp] theorem State.initDecoder_idx (s : State) : s.initDecoder.idx = 0#8 := rfl
@[simp] theorem State.initDecoder_crc (s : State) : s.initDecoder.crc = Config.crcInit := rfl
@[simp] theorem State.initDecoder_fr (s : State) : s.initDecoder.fr = s.fr := rfl
@[simp] theorem State.initDecoder_pending (s : State) : s.initDecoder.pending = s.pending := rfl
@[simp] theorem State.initDecoder_responses (s : State) : s.initDecoder.responses = s.responses := rfl
@[simp] theorem State.initDecoder_byte (s : State) (k : Nat) : s.initDecoder.byte k = s.byte k := rfl

/-! ### The command port -/

theorem State.nextCommand_nil (s : State) (h : s.pending = []) : s.nextCommand = none := by
  simp [State.nextCommand, h]

theorem State.nextCommand_cons (s : State) (c : CommandWord) (rest : List CommandWord) (h : s.pending = c :: rest) :
    s.nextCommand = some (c, { s with pending := rest }) := by
  simp [State.nextCommand, h]

/-- A command just issued is the next one taken, and taking it restores the port. -/
@[simp] theorem State.nextCommand_issueFirst (s : State) (c : CommandWord) :
    (s.issueFirst c).nextCommand = some (c, s) := rfl

end Sys2Proof.Machine
end

