-- ==== Sys2Proof/Laws/Ops.lean ====
section
/-! SUPPORT. For each shared operation behind the commands, once, everything it can answer: its next states, its faults, and that it never refuses. A proof cites these instead of unfolding the operation. -/

namespace Sys2Proof.Machine

/-! ### Loads -/

theorem load_next {n : Nat} {signed : Bool} {o : Byte} {s t : State} :
    load n signed o s = .next t ↔
      (128 < o.toNat + n ∧ t = s.answer .rangeFault 0#32) ∨
      (o.toNat + n ≤ 128 ∧ ∃ bs, Memory.readRun s.fr (payloadAddr o) n = .ok bs ∧
        t = s.answer .ok (extendTo32 signed (leValue (8 * n) bs))) := by
  by_cases h : o.toNat + n ≤ 128
  · cases hr : Memory.readRun s.fr (payloadAddr o) n <;> simp [load, offsetInRange, h, hr, eq_comm]
  · simp [load, offsetInRange, h, raise, Nat.lt_of_not_le h, eq_comm]

theorem load_fault {n : Nat} {signed : Bool} {o : Byte} {s : State} {f : Fault} :
    load n signed o s = .fault f ↔ o.toNat + n ≤ 128 ∧ Memory.readRun s.fr (payloadAddr o) n = .error f := by
  by_cases h : o.toNat + n ≤ 128
  · cases hr : Memory.readRun s.fr (payloadAddr o) n <;> simp [load, offsetInRange, h, hr]
  · simp [load, offsetInRange, h, raise]

theorem load_not_refused {n : Nat} {signed : Bool} {o : Byte} {s : State} {r : Refusal} :
    load n signed o s ≠ .refused r := by
  by_cases h : o.toNat + n ≤ 128
  · cases hr : Memory.readRun s.fr (payloadAddr o) n <;> simp [load, offsetInRange, h, hr]
  · simp [load, offsetInRange, h, raise]

/-! ### Stores -/

theorem store_eq (n : Nat) (o : Byte) (v : Word) (s : State) :
    store n o v s = .next (if o.toNat + n ≤ 128 then (s.writeBytes (payloadAddr o) (leBytes n v)).answer .ok 0#32
      else s.answer .rangeFault 0#32) := by
  by_cases h : o.toNat + n ≤ 128 <;> simp [store, offsetInRange, h, raise]

/-! ### The generator -/

/-- R107's requirement of a model. -/
theorem crcPoly_bit15 : Config.crcPoly.getLsbD 15 = true := by
  rw [Config.crcPoly, BitVec.getLsbD_append]; decide

/-! ### The encoder and the read port -/

/-- The state ENC leaves when it frames `payload` (R150). -/
def framed (poly : Half) (n : Byte) (payload : List Byte) (s : State) : State :=
  ((s.writeBytes 0 [Config.sync1, Config.sync2, n]).writeBytes (payloadAddr n)
    (crcTrailer (crc16 poly (n :: payload)))).answer .ok (n.setWidth 32 + 5#32)

theorem encodeFrame_next {poly : Half} {n : Byte} {s t : State} :
    encodeFrame poly n s = .next t ↔
      (128 ≤ n.toNat ∧ t = s.answer .encodeError 0#32) ∨
      (n.toNat < 128 ∧ ∃ payload, Memory.readRun s.fr 3 n.toNat = .ok payload ∧ t = framed poly n payload s) := by
  by_cases h : n.toNat < 128
  · cases hr : Memory.readRun s.fr 3 n.toNat <;> simp [encodeFrame, lengthEncodable, h, hr, framed, eq_comm]
  · simp [encodeFrame, lengthEncodable, h, raise, Nat.le_of_not_lt h, eq_comm]

theorem encodeFrame_fault {poly : Half} {n : Byte} {s : State} {f : Fault} :
    encodeFrame poly n s = .fault f ↔ n.toNat < 128 ∧ Memory.readRun s.fr 3 n.toNat = .error f := by
  by_cases h : n.toNat < 128
  · cases hr : Memory.readRun s.fr 3 n.toNat <;> simp [encodeFrame, lengthEncodable, h, hr]
  · simp [encodeFrame, lengthEncodable, h, raise]

theorem encodeFrame_not_refused {poly : Half} {n : Byte} {s : State} {r : Refusal} :
    encodeFrame poly n s ≠ .refused r := by
  by_cases h : n.toNat < 128
  · cases hr : Memory.readRun s.fr 3 n.toNat <;> simp [encodeFrame, lengthEncodable, h, hr]
  · simp [encodeFrame, lengthEncodable, h, raise]

theorem execFrd_eq (a : Byte) (s : State) :
    execFrd a s =
      if a.toNat < 133 then
        match s.byte a.toNat with
        | none => .fault (.unwrittenRead a.toNat)
        | some b => .next (s.answer .ok (b.setWidth 32))
      else .next (s.answer .rangeFault 0#32) := by
  by_cases h : a.toNat < 133
  · cases hb : s.byte a.toNat <;> simp [execFrd, addressInRange, h, hb]
  · simp [execFrd, addressInRange, h, raise]

/-- Framing leaves the decoder registers and the command port alone (R152). -/
@[simp] theorem framed_registers (poly : Half) (n : Byte) (payload : List Byte) (s : State) :
    (framed poly n payload s).state = s.state ∧ (framed poly n payload s).len = s.len ∧
    (framed poly n payload s).idx = s.idx ∧ (framed poly n payload s).crc = s.crc ∧
    (framed poly n payload s).pending = s.pending := ⟨rfl, rfl, rfl, rfl, rfl⟩

/-- The bytes after framing (R150): the prefix, the trailer, and everything else as before. -/
theorem framed_byte (poly : Half) (n : Byte) (payload : List Byte) (s : State) (k : Nat) :
    (framed poly n payload s).byte k =
      if k = 0 then some 0x5A#8 else if k = 1 then some 0x7E#8 else if k = 2 then some n
      else if k = 3 + n.toNat then some ((crc16 poly (n :: payload)).extractLsb' 0 8)
      else if k = 4 + n.toNat then some ((crc16 poly (n :: payload)).extractLsb' 8 8)
      else s.byte k := by
  simp only [framed, State.answer_byte, State.writeBytes_byte, State.writeBytes_fr, crcTrailer, Memory.writeRun,
    Memory.read_write, payloadAddr, Config.pfx, Config.sync1, Config.sync2]
  simp only [State.byte]
  split_ifs <;> first | rfl | (exfalso; omega)

/-! ### The header codec -/

theorem readHeader_next {version : BitVec 2} {s t : State} :
    readHeader version s = .next t ↔
      ∃ bs, Memory.readRun s.fr 3 3 = .ok bs ∧
        (((leValue 24 bs).extractLsb' 0 2 = version ∧
            t = s.respond ⟨.ok, (leValue 24 bs).setWidth 32, Header.unpack (leValue 24 bs)⟩) ∨
         ((leValue 24 bs).extractLsb' 0 2 ≠ version ∧ t = s.answer .versionError 0#32)) := by
  cases hr : Memory.readRun s.fr 3 3 with
  | error f => simp [readHeader, hr]
  | ok bs =>
    by_cases hv : (leValue 24 bs).extractLsb' 0 2 = version <;>
      simp [readHeader, hr, versionAccepted, hv, raise, @eq_comm _ t]

theorem readHeader_fault {version : BitVec 2} {s : State} {f : Fault} :
    readHeader version s = .fault f ↔ Memory.readRun s.fr 3 3 = .error f := by
  cases hr : Memory.readRun s.fr 3 3 with
  | error f => simp [readHeader, hr]
  | ok bs => by_cases hv : (leValue 24 bs).extractLsb' 0 2 = version <;> simp [readHeader, hr, versionAccepted, hv, raise]

theorem readHeader_not_refused {version : BitVec 2} {s : State} {r : Refusal} : readHeader version s ≠ .refused r := by
  cases hr : Memory.readRun s.fr 3 3 with
  | error f => simp [readHeader, hr]
  | ok bs => by_cases hv : (leValue 24 bs).extractLsb' 0 2 = version <;> simp [readHeader, hr, versionAccepted, hv, raise]

/-! ### The decoder -/

/-- The state one RXB leaves (R122), where its store, if it has one, is inside the buffer. -/
def received (poly : Half) (b : Byte) (s : State) : State :=
  match s.state with
  | .sync1 => (s.moveTo (if b = 0x5A#8 then .sync2 else .sync1)).answer .incomplete 0#32
  | .sync2 => (s.moveTo (if b = 0x7E#8 then .length else .sync1)).answer .incomplete 0#32
  | .length =>
    if 128 < b.toNat then (s.moveTo .sync1).answer .incomplete 0#32
    else ((s.startFrame poly b).moveTo (if 0 < b.toNat then .data else .crc1)).answer .incomplete 0#32
  | .data => (storePayloadByte poly b s).answer .incomplete 0#32
  | .crc1 => ((s.feedCrc poly b).moveTo .crc2).answer .incomplete 0#32
  | .crc2 => ((s.feedCrc poly b).moveTo .sync1).respond (crcGate (crc16Upd poly s.crc b) s.len)

theorem State.moveTo_self {s : State} {st : DecoderState} (h : s.state = st) : s.moveTo st = s := by
  subst h; rfl

/-- RXB answers `received`, but in DATA with an address outside the buffer, where it faults (R122; log entry 7). -/
theorem receiveByte_eq (poly : Half) (b : Byte) (s : State) :
    receiveByte poly b s =
      if s.state = .data ∧ 133 ≤ 3 + s.idx.toNat then .fault (.outsideBuffer (3 + s.idx.toNat))
      else .next (received poly b s) := by
  cases h : s.state with
  | data =>
    by_cases ha : 3 + s.idx.toNat < 133
    · simp [receiveByte, h, rxbData, payloadAddr, ha, received, incomplete, Nat.not_le_of_lt ha]
    · simp [receiveByte, h, rxbData, payloadAddr, ha, Nat.le_of_not_lt ha]
  | sync1 =>
    by_cases hb : b = 0x5A#8 <;> simp [receiveByte, h, rxbSync1, received, incomplete, hb, State.moveTo_self h]
  | sync2 => by_cases hb : b = 0x7E#8 <;> simp [receiveByte, h, rxbSync2, received, incomplete, hb]
  | length =>
    by_cases hb : 128 < b.toNat
    · simp [receiveByte, h, rxbLength, received, incomplete, hb]
    · by_cases h0 : 0 < b.toNat <;> simp [receiveByte, h, rxbLength, received, incomplete, hb, h0]
  | crc1 => simp [receiveByte, h, rxbCrc1, received, incomplete]
  | crc2 => simp [receiveByte, h, rxbCrc2, received]

/-! What one RXB leaves, field by field. -/

/-- Storing a payload byte (R126), field by field. -/
@[simp] theorem storePayloadByte_state (poly : Half) (b : Byte) (s : State) :
    (storePayloadByte poly b s).state = if s.idx + 1#8 = s.len then .crc1 else s.state := by
  simp only [storePayloadByte]; split_ifs <;> simp_all

@[simp] theorem storePayloadByte_len (poly : Half) (b : Byte) (s : State) : (storePayloadByte poly b s).len = s.len := by
  simp only [storePayloadByte]; split_ifs <;> simp

@[simp] theorem storePayloadByte_idx (poly : Half) (b : Byte) (s : State) :
    (storePayloadByte poly b s).idx = s.idx + 1#8 := by
  simp only [storePayloadByte]; split_ifs <;> simp

@[simp] theorem storePayloadByte_crc (poly : Half) (b : Byte) (s : State) :
    (storePayloadByte poly b s).crc = crc16Upd poly s.crc b := by
  simp only [storePayloadByte]; split_ifs <;> simp

@[simp] theorem storePayloadByte_fr (poly : Half) (b : Byte) (s : State) :
    (storePayloadByte poly b s).fr = Memory.write s.fr (3 + s.idx.toNat) b := by
  simp only [storePayloadByte]; split_ifs <;> simp [Memory.writeRun, payloadAddr]

@[simp] theorem storePayloadByte_pending (poly : Half) (b : Byte) (s : State) :
    (storePayloadByte poly b s).pending = s.pending := by
  simp only [storePayloadByte]; split_ifs <;> simp

@[simp] theorem storePayloadByte_responses (poly : Half) (b : Byte) (s : State) :
    (storePayloadByte poly b s).responses = s.responses := by
  simp only [storePayloadByte]; split_ifs <;> simp

@[simp] theorem received_state (poly : Half) (b : Byte) (s : State) :
    (received poly b s).state = match s.state with
      | .sync1 => if b = 0x5A#8 then .sync2 else .sync1
      | .sync2 => if b = 0x7E#8 then .length else .sync1
      | .length => if 128 < b.toNat then .sync1 else if 0 < b.toNat then .data else .crc1
      | .data => if s.idx + 1#8 = s.len then .crc1 else .data
      | .crc1 => .crc2
      | .crc2 => .sync1 := by
  unfold received
  cases h : s.state <;> simp [h]
  split_ifs <;> simp

theorem received_len (poly : Half) (b : Byte) (s : State) :
    (received poly b s).len = if s.state = .length ∧ b.toNat ≤ 128 then b else s.len := by
  unfold received
  cases h : s.state <;> simp
  split_ifs <;> first | rfl | (exfalso; omega)

theorem received_idx (poly : Half) (b : Byte) (s : State) :
    (received poly b s).idx =
      if s.state = .length ∧ b.toNat ≤ 128 then 0#8 else if s.state = .data then s.idx + 1#8 else s.idx := by
  unfold received
  cases h : s.state <;> simp
  split_ifs <;> first | rfl | (exfalso; omega)

theorem received_crc (poly : Half) (b : Byte) (s : State) :
    (received poly b s).crc =
      if s.state = .length ∧ b.toNat ≤ 128 then crc16Upd poly 0#16 b
      else if s.state = .data ∨ s.state = .crc1 ∨ s.state = .crc2 then crc16Upd poly s.crc b else s.crc := by
  unfold received
  cases h : s.state <;> simp
  split_ifs <;> first | rfl | (exfalso; omega)

theorem received_fr (poly : Half) (b : Byte) (s : State) :
    (received poly b s).fr = if s.state = .data then Memory.write s.fr (3 + s.idx.toNat) b else s.fr := by
  unfold received
  cases h : s.state <;> simp
  split_ifs <;> rfl

@[simp] theorem received_pending (poly : Half) (b : Byte) (s : State) : (received poly b s).pending = s.pending := by
  unfold received
  cases h : s.state <;> simp
  split_ifs <;> rfl

theorem received_responses (poly : Half) (b : Byte) (s : State) :
    (received poly b s).responses = s.responses ++
      [if s.state = .crc2 then crcGate (crc16Upd poly s.crc b) s.len else ⟨.incomplete, 0#32, Header.zero⟩] := by
  unfold received
  cases h : s.state <;> simp
  split_ifs <;> simp

/-! ### Steps and sequences -/

/-- With no command at the port a step waits (R28; log entry 3). -/
theorem step_idle {s : State} (h : s.pending = []) : step s = .next s := by
  simp [step, State.nextCommand_nil s h]

/-- What a step does with the oldest command word (R75). -/
theorem step_eq {s : State} {c : CommandWord} {rest : List CommandWord} (h : s.pending = c :: rest) :
    step s = match decode c with
      | none => .next (State.answer { s with pending := rest } .illegalCmd 0#32)
      | some i => exec i { s with pending := rest } := by
  cases hd : decode c <;> simp [step, State.nextCommand_cons s c rest h, hd, illegalCommand, raise]

@[simp] theorem runCommands_nil (s : State) : runCommands [] s = .next s := rfl

theorem runCommands_cons {i : Instr} {s t : State} (is : List Instr) (h : exec i s = .next t) :
    runCommands (i :: is) s = runCommands is t := by
  simp [runCommands, h]

/-- Running two sequences one after the other. -/
theorem runCommands_append (is js : List Instr) {s t : State} (h : runCommands is s = .next t) :
    runCommands (is ++ js) s = runCommands js t := by
  induction is generalizing s with
  | nil => cases h; rfl
  | cons i is ih =>
    cases he : exec i s with
    | next u =>
      rw [runCommands_cons is he] at h
      rw [List.cons_append, runCommands_cons _ he, ih h]
    | fault f => simp [runCommands, he] at h
    | refused r => simp [runCommands, he] at h

end Sys2Proof.Machine
end

