-- ==== Sys2Proof/Laws/Exec.lean ====
section
/-! SUPPORT. Everything `exec` can answer, said once: its next states as the relation `Effect`, its faults, and that it never refuses. The six loads and the six stores are two cases each, by their width. -/

namespace Sys2Proof.Machine

/-- Width, signedness and offset of a load. -/
def loadOperands : Instr → Option (Nat × Bool × Byte)
  | .ldU8 o => some (1, false, o)
  | .ldI8 o => some (1, true, o)
  | .ldU16 o => some (2, false, o)
  | .ldI16 o => some (2, true, o)
  | .ldU32 o => some (4, false, o)
  | .ldI32 o => some (4, true, o)
  | _ => none

/-- Width, offset and value of a store. -/
def storeOperands : Instr → Option (Nat × Byte × Word)
  | .stU8 o v => some (1, o, v)
  | .stI8 o v => some (1, o, v)
  | .stU16 o v => some (2, o, v)
  | .stI16 o v => some (2, o, v)
  | .stU32 o v => some (4, o, v)
  | .stI32 o v => some (4, o, v)
  | _ => none

theorem exec_load {i : Instr} {n : Nat} {signed : Bool} {o : Byte} (h : loadOperands i = some (n, signed, o)) (s : State) :
    exec i s = load n signed o s := by
  cases i <;> simp only [loadOperands, Option.some.injEq, Prod.mk.injEq, reduceCtorEq] at h <;>
    (obtain ⟨rfl, rfl, rfl⟩ := h; rfl)

theorem exec_store {i : Instr} {n : Nat} {o : Byte} {v : Word} (h : storeOperands i = some (n, o, v)) (s : State) :
    exec i s = store n o v s := by
  cases i <;> simp only [storeOperands, Option.some.injEq, Prod.mk.injEq, reduceCtorEq] at h <;>
    (obtain ⟨rfl, rfl, rfl⟩ := h; rfl)

/-- What a load reads (R52). -/
theorem readsByte_load {i : Instr} {n : Nat} {signed : Bool} {o : Byte} (h : loadOperands i = some (n, signed, o)) (k : Nat) :
    readsByte i k ↔ o.toNat + n ≤ 128 ∧ 3 + o.toNat ≤ k ∧ k < 3 + o.toNat + n := by
  cases i <;> simp only [loadOperands, Option.some.injEq, Prod.mk.injEq, reduceCtorEq] at h <;>
    (obtain ⟨rfl, rfl, rfl⟩ := h; rfl)

/-- What a store writes (R52). -/
theorem writesByte_store {i : Instr} {n : Nat} {o : Byte} {v : Word} (h : storeOperands i = some (n, o, v)) (s : State) (k : Nat) :
    s.writesByte i k ↔ o.toNat + n ≤ 128 ∧ 3 + o.toNat ≤ k ∧ k < 3 + o.toNat + n := by
  cases i <;> simp only [storeOperands, Option.some.injEq, Prod.mk.injEq, reduceCtorEq] at h <;>
    (obtain ⟨rfl, rfl, rfl⟩ := h; rfl)

/-- The next states of a command, one case for each way it completes. -/
inductive Effect (s : State) : Instr → State → Prop where
  | init : Effect s .init (s.initDecoder.answer .ok 0#32)
  | rxb (b : Byte) (inside : s.state = .data → 3 + s.idx.toNat < 133) : Effect s (.rxb b) (received Config.crcPoly b s)
  | encRefused (n : Byte) (long : 128 ≤ n.toNat) : Effect s (.enc n) (s.answer .encodeError 0#32)
  | encFramed (n : Byte) (short : n.toNat < 128) (payload : List Byte)
      (read : Memory.readRun s.fr 3 n.toNat = .ok payload) : Effect s (.enc n) (framed Config.crcPoly n payload s)
  | hdrRead (bs : List Byte) (read : Memory.readRun s.fr 3 3 = .ok bs)
      (version : (leValue 24 bs).extractLsb' 0 2 = Config.version) :
      Effect s .hdrRd (s.respond ⟨.ok, (leValue 24 bs).setWidth 32, Header.unpack (leValue 24 bs)⟩)
  | hdrRejected (bs : List Byte) (read : Memory.readRun s.fr 3 3 = .ok bs)
      (version : (leValue 24 bs).extractLsb' 0 2 ≠ Config.version) : Effect s .hdrRd (s.answer .versionError 0#32)
  | hdrWritten (h : BitVec 24) :
      Effect s (.hdrWr h) ((s.writeBytes 3 (leBytes 4 (h.setWidth 32))).answer .ok 0#32)
  | loadRefused (i : Instr) (n : Nat) (signed : Bool) (o : Byte) (ops : loadOperands i = some (n, signed, o))
      (out : 128 < o.toNat + n) : Effect s i (s.answer .rangeFault 0#32)
  | loaded (i : Instr) (n : Nat) (signed : Bool) (o : Byte) (ops : loadOperands i = some (n, signed, o))
      (inside : o.toNat + n ≤ 128) (bs : List Byte) (read : Memory.readRun s.fr (payloadAddr o) n = .ok bs) :
      Effect s i (s.answer .ok (extendTo32 signed (leValue (8 * n) bs)))
  | storeRefused (i : Instr) (n : Nat) (o : Byte) (v : Word) (ops : storeOperands i = some (n, o, v))
      (out : 128 < o.toNat + n) : Effect s i (s.answer .rangeFault 0#32)
  | stored (i : Instr) (n : Nat) (o : Byte) (v : Word) (ops : storeOperands i = some (n, o, v))
      (inside : o.toNat + n ≤ 128) : Effect s i ((s.writeBytes (payloadAddr o) (leBytes n v)).answer .ok 0#32)
  | frdRefused (a : Byte) (out : 133 ≤ a.toNat) : Effect s (.frd a) (s.answer .rangeFault 0#32)
  | frdRead (a b : Byte) (inside : a.toNat < 133) (read : s.byte a.toNat = some b) :
      Effect s (.frd a) (s.answer .ok (b.setWidth 32))

theorem effect_of_load {i : Instr} {n : Nat} {signed : Bool} {o : Byte} (ops : loadOperands i = some (n, signed, o)) {s t : State}
    (h : exec i s = .next t) : Effect s i t := by
  rw [exec_load ops, load_next] at h
  rcases h with ⟨out, rfl⟩ | ⟨inside, bs, read, rfl⟩
  · exact .loadRefused i n signed o ops out
  · exact .loaded i n signed o ops inside bs read

theorem effect_of_store {i : Instr} {n : Nat} {o : Byte} {v : Word} (ops : storeOperands i = some (n, o, v)) {s t : State}
    (h : exec i s = .next t) : Effect s i t := by
  rw [exec_store ops, store_eq] at h
  split_ifs at h with inside <;> cases h
  · exact .stored i n o v ops inside
  · exact .storeRefused i n o v ops (by omega)

/-- Whatever a command answers as its next state is one of the cases of `Effect`. -/
theorem effect_of_exec {i : Instr} {s t : State} (h : exec i s = .next t) : Effect s i t := by
  cases i with
  | init => cases h; exact .init
  | rxb b =>
    have h : receiveByte Config.crcPoly b s = .next t := h
    rw [receiveByte_eq] at h
    split_ifs at h with out
    cases h
    exact .rxb b fun hs => by_contra fun hn => out ⟨hs, by omega⟩
  | enc n =>
    have h : encodeFrame Config.crcPoly n s = .next t := h
    rcases encodeFrame_next.1 h with ⟨long, rfl⟩ | ⟨short, payload, read, rfl⟩
    · exact .encRefused n long
    · exact .encFramed n short payload read
  | hdrRd =>
    have h : readHeader Config.version s = .next t := h
    obtain ⟨bs, read, ⟨version, rfl⟩ | ⟨version, rfl⟩⟩ := readHeader_next.1 h
    · exact .hdrRead bs read version
    · exact .hdrRejected bs read version
  | hdrWr w => cases h; exact .hdrWritten w
  | ldU8 o => exact effect_of_load rfl h
  | ldI8 o => exact effect_of_load rfl h
  | ldU16 o => exact effect_of_load rfl h
  | ldI16 o => exact effect_of_load rfl h
  | ldU32 o => exact effect_of_load rfl h
  | ldI32 o => exact effect_of_load rfl h
  | stU8 o v => exact effect_of_store rfl h
  | stI8 o v => exact effect_of_store rfl h
  | stU16 o v => exact effect_of_store rfl h
  | stI16 o v => exact effect_of_store rfl h
  | stU32 o v => exact effect_of_store rfl h
  | stI32 o v => exact effect_of_store rfl h
  | frd a =>
    have h : execFrd a s = .next t := h
    rw [execFrd_eq] at h
    split_ifs at h with inside
    · cases hb : s.byte a.toNat with
      | none => simp [hb] at h
      | some b => rw [hb] at h; cases h; exact .frdRead a b inside hb
    · cases h; exact .frdRefused a (by omega)

/-- Every fault of a command: the run it reads has an unwritten byte, or RXB's store lies outside the buffer. -/
theorem exec_fault {i : Instr} {s : State} {f : Fault} :
    exec i s = .fault f ↔
      (∃ n, i = .enc n ∧ n.toNat < 128 ∧ Memory.readRun s.fr 3 n.toNat = .error f) ∨
      (i = .hdrRd ∧ Memory.readRun s.fr 3 3 = .error f) ∨
      (∃ n signed o, loadOperands i = some (n, signed, o) ∧ o.toNat + n ≤ 128 ∧ Memory.readRun s.fr (payloadAddr o) n = .error f) ∨
      (∃ a, i = .frd a ∧ a.toNat < 133 ∧ s.byte a.toNat = none ∧ f = .unwrittenRead a.toNat) ∨
      (∃ b, i = .rxb b ∧ s.state = .data ∧ 133 ≤ 3 + s.idx.toNat ∧ f = .outsideBuffer (3 + s.idx.toNat)) := by
  cases i with
  | init => simp [exec, execInit, loadOperands]
  | rxb b =>
    rw [show exec (.rxb b) s = receiveByte Config.crcPoly b s from rfl, receiveByte_eq]
    split_ifs with out <;> simp [loadOperands, out, eq_comm]
    tauto
  | enc n =>
    rw [show exec (.enc n) s = encodeFrame Config.crcPoly n s from rfl, encodeFrame_fault]
    simp [loadOperands]
  | hdrRd =>
    rw [show exec .hdrRd s = readHeader Config.version s from rfl, readHeader_fault]
    simp [loadOperands]
  | hdrWr h => simp [exec, execHdrWr, loadOperands]
  | frd a =>
    rw [show exec (.frd a) s = execFrd a s from rfl, execFrd_eq]
    split_ifs with inside
    · cases hb : s.byte a.toNat <;> simp [loadOperands, inside, hb, eq_comm]
    · simp [loadOperands, inside]
  | ldU8 o => rw [exec_load rfl, load_fault]; simp [loadOperands]
  | ldI8 o => rw [exec_load rfl, load_fault]; simp [loadOperands]
  | ldU16 o => rw [exec_load rfl, load_fault]; simp [loadOperands]
  | ldI16 o => rw [exec_load rfl, load_fault]; simp [loadOperands]
  | ldU32 o => rw [exec_load rfl, load_fault]; simp [loadOperands]
  | ldI32 o => rw [exec_load rfl, load_fault]; simp [loadOperands]
  | stU8 o v => rw [exec_store rfl, store_eq]; simp [loadOperands]
  | stI8 o v => rw [exec_store rfl, store_eq]; simp [loadOperands]
  | stU16 o v => rw [exec_store rfl, store_eq]; simp [loadOperands]
  | stI16 o v => rw [exec_store rfl, store_eq]; simp [loadOperands]
  | stU32 o v => rw [exec_store rfl, store_eq]; simp [loadOperands]
  | stI32 o v => rw [exec_store rfl, store_eq]; simp [loadOperands]

/-! ### Bytes of a state -/

/-- A run of reads answers exactly the bytes the state holds there. -/
theorem readRun_eq_holds {s : State} {a : Nat} {bs : List Byte} :
    Memory.readRun s.fr a bs.length = .ok bs ↔ s.holds a bs := by
  rw [Memory.readRun_eq_ok]
  simp [State.holds, State.byte]

/-- Bytes just written are held. -/
theorem holds_writeBytes (s : State) (a : Nat) (bs : List Byte) : (s.writeBytes a bs).holds a bs := by
  intro k hk
  rw [State.writeBytes_byte, Memory.read_writeRun_inside hk]

/-- Bytes outside those written read as before. -/
theorem sameOutside_writeBytes (s : State) (a : Nat) (bs : List Byte) : s.sameOutside (s.writeBytes a bs) a bs.length := by
  intro k hk
  rw [State.writeBytes_byte, Memory.read_writeRun_outside hk, State.byte]

end Sys2Proof.Machine
end

