-- ==== Sys2Proof/Laws/PerInstr.lean ====
section
/-! SUPPORT. Statements for all instructions, one lemma per constructor. `EncodedLegal`: the fields of a command's word are a legal command (30_encoding.md R73, R76), for every operand. -/

namespace Sys2Proof.Laws.EncodedLegal

/-- The fields the encoder gives a command pass the legality checks written from R73 and R76. -/
def Statement (i : Instr) : Prop := (encodeFields i).wellFormed = true

theorem init : Statement .init := rfl
theorem rxb (b : Byte) : Statement (.rxb b) := rfl
theorem enc (n : Byte) : Statement (.enc n) := rfl
theorem hdrRd : Statement .hdrRd := rfl

/-- The header takes 24 bits of `D`, so `D[31:24]` is 0. -/
theorem hdrWr (h : BitVec 24) : Statement (.hdrWr h) := by
  have pad : (h.setWidth 32).extractLsb' 24 8 = 0#8 := by
    ext i hi
    simp
  simp [Statement, encodeFields, CommandFields.wellFormed, CommandFields.opLegal, CommandFields.fnLegal,
    CommandFields.aLegal, CommandFields.dLegal, pad]

theorem ldU8 (o : Byte) : Statement (.ldU8 o) := rfl
theorem ldI8 (o : Byte) : Statement (.ldI8 o) := rfl
theorem ldU16 (o : Byte) : Statement (.ldU16 o) := rfl
theorem ldI16 (o : Byte) : Statement (.ldI16 o) := rfl
theorem ldU32 (o : Byte) : Statement (.ldU32 o) := rfl
theorem ldI32 (o : Byte) : Statement (.ldI32 o) := rfl
theorem stU8 (o : Byte) (v : Word) : Statement (.stU8 o v) := rfl
theorem stI8 (o : Byte) (v : Word) : Statement (.stI8 o v) := rfl
theorem stU16 (o : Byte) (v : Word) : Statement (.stU16 o v) := rfl
theorem stI16 (o : Byte) (v : Word) : Statement (.stI16 o v) := rfl
theorem stU32 (o : Byte) (v : Word) : Statement (.stU32 o v) := rfl
theorem stI32 (o : Byte) (v : Word) : Statement (.stI32 o v) := rfl
theorem frd (a : Byte) : Statement (.frd a) := rfl

end Sys2Proof.Laws.EncodedLegal
end

