-- ==== Sys2Proof/Tests/Slice0.lean ====
section
/-! SUPPORT. Small tests: hand-written words, one-step vectors of 95_test_vectors.md (with its generator 0xA001 and version 1, given to the operations that take them as arguments), and a witness for every hypothesis of every obligation. -/

open Sys2Proof Sys2Proof.Machine

/-- A state with the given decoder registers and buffer and both ports empty. -/
def boardState (state : DecoderState) (len idx : Byte) (crc : Half) (fr : List Host.Cell) : State :=
  { state, len, idx, crc, fr, pending := [], responses := [] }

/-- The start state of ACC-1 to ACC-14: `PB[4..7] = 80 FF 01 7F`. -/
def accState : State := boardState .sync1 0#8 0#8 0#16 [(7, 0x80#8), (8, 0xFF#8), (9, 0x01#8), (10, 0x7F#8)]

/-- `PB[0..2] = 05 00 00`, the ping payload of S1. -/
def pingState : State := boardState .sync1 3#8 3#8 0#16 [(3, 0x05#8), (4, 0x00#8), (5, 0x00#8)]

/-- The bytes `FR[124..130]`, the top of the payload. -/
def topState : State :=
  boardState .sync1 0#8 0#8 0#16 [(127, 1#8), (128, 2#8), (129, 3#8), (130, 0x84#8)]

/-- What a command answered last and the bytes `FR[0..n-1]` after it. -/
def answerAnd (n : Nat) (r : Result) : Option (Option Response × List (Option Byte)) :=
  match r with
  | .next t => some (t.responses.getLast?, (List.range n).map t.byte)
  | _ => none

/-- The last response of a command. -/
def answerOf (r : Result) : Option Response :=
  match r with
  | .next t => t.responses.getLast?
  | _ => none

/-- The fault of a command. -/
def faultOf (r : Result) : Option Fault :=
  match r with
  | .fault f => some f
  | _ => none

/-- A response with all-zero header fields. -/
def plain (st : Status) (v : Word) : Option Response := some ⟨st, v, Header.zero⟩

/-! ### Well-formedness (R73, R76): each check refuses a word of its own, and only that check does -/

theorem test_wf_legal_word : (fieldsOf 0x6408DEADBEEF#48).wellFormed = true := by decide

/-- CMD-1: `OP` 8. -/
theorem test_wf_op : (fieldsOf 0x800000000000#48).opLegal = false ∧ (fieldsOf 0x800000000000#48).fnLegal = true ∧
    (fieldsOf 0x800000000000#48).aLegal = true ∧ (fieldsOf 0x800000000000#48).dLegal = true := by decide

/-- CMD-3 and CMD-6: INIT with `FN` 1, LD with `FN` 6. -/
theorem test_wf_fn : (fieldsOf 0x010000000000#48).fnLegal = false ∧ (fieldsOf 0x560000000000#48).fnLegal = false ∧
    (fieldsOf 0x560000000000#48).opLegal = true ∧ (fieldsOf 0x560000000000#48).aLegal = true ∧
    (fieldsOf 0x560000000000#48).dLegal = true := by decide

/-- CMD-8: HDR.RD with `A` nonzero. -/
theorem test_wf_a : (fieldsOf 0x300100000000#48).aLegal = false ∧ (fieldsOf 0x300100000000#48).opLegal = true ∧
    (fieldsOf 0x300100000000#48).fnLegal = true ∧ (fieldsOf 0x300100000000#48).dLegal = true := by decide

/-- CMD-5 and CMD-9: RXB with `D` nonzero, HDR.WR with `D[24]` set. -/
theorem test_wf_d : (fieldsOf 0x1000000000FF#48).dLegal = false ∧ (fieldsOf 0x400001000000#48).dLegal = false ∧
    (fieldsOf 0x400001000000#48).opLegal = true ∧ (fieldsOf 0x400001000000#48).fnLegal = true ∧
    (fieldsOf 0x400001000000#48).aLegal = true := by decide

theorem test_wf_refuses : (fieldsOf 0x800000000000#48).wellFormed = false ∧ (fieldsOf 0x560000000000#48).wellFormed = false ∧
    (fieldsOf 0x300100000000#48).wellFormed = false ∧ (fieldsOf 0x400001000000#48).wellFormed = false := by decide

/-! ### Decoding words written out from R71 to R73 and R78 -/

theorem test_decode_init : decode 0x000000000000#48 = some .init := by decide
theorem test_decode_rxb : decode 0x105A00000000#48 = some (.rxb 0x5A#8) := by decide
theorem test_decode_enc : decode 0x200300000000#48 = some (.enc 3#8) := by decide
theorem test_decode_hdrRd : decode 0x300000000000#48 = some .hdrRd := by decide
theorem test_decode_hdrWr : decode 0x400000100009#48 = some (.hdrWr 0x100009#24) := by decide
theorem test_decode_ldU8 : decode 0x500400000000#48 = some (.ldU8 4#8) := by decide
theorem test_decode_ldI8 : decode 0x510700000000#48 = some (.ldI8 7#8) := by decide
theorem test_decode_ldU16 : decode 0x520500000000#48 = some (.ldU16 5#8) := by decide
theorem test_decode_ldI16 : decode 0x530400000000#48 = some (.ldI16 4#8) := by decide
theorem test_decode_ldU32 : decode 0x547D00000000#48 = some (.ldU32 125#8) := by decide
theorem test_decode_ldI32 : decode 0x550400000000#48 = some (.ldI32 4#8) := by decide
theorem test_decode_stU8 : decode 0x600400000012#48 = some (.stU8 4#8 0x12#32) := by decide
theorem test_decode_stI8 : decode 0x6105FFFFFFFE#48 = some (.stI8 5#8 0xFFFFFFFE#32) := by decide
theorem test_decode_stU16 : decode 0x62040000BEEF#48 = some (.stU16 4#8 0xBEEF#32) := by decide
theorem test_decode_stI16 : decode 0x6306FFFF8000#48 = some (.stI16 6#8 0xFFFF8000#32) := by decide
theorem test_decode_stU32 : decode 0x6408DEADBEEF#48 = some (.stU32 8#8 0xDEADBEEF#32) := by decide
theorem test_decode_stI32 : decode 0x6504FFFFFFFF#48 = some (.stI32 4#8 0xFFFFFFFF#32) := by decide
theorem test_decode_frd : decode 0x708500000000#48 = some (.frd 133#8) := by decide

/-- CMD-1 to CMD-10 of 95_test_vectors.md. -/
theorem test_decode_illegal :
    [0x800000000000#48, 0xF00000000000#48, 0x010000000000#48, 0x000000000001#48, 0x1000000000FF#48, 0x560000000000#48,
      0x6F0000000000#48, 0x300100000000#48, 0x400001000000#48, 0x700000000001#48].map decode =
      List.replicate 10 none := by decide

/-- The words of R78's examples, from the encoder. -/
theorem test_encode_examples : encode (.rxb 0x5A#8) = 0x105A00000000#48 ∧ encode (.stU32 8#8 0xDEADBEEF#32) = 0x6408DEADBEEF#48 ∧
    encode (hdrWrFields ⟨1#2, 1#5, 0#6, 0#5, 0#2, 0#4⟩) = 0x400000000005#48 := by decide

theorem test_decodeTableWord : decodeTableWord 48 0x6408DEADBEEF = some (.stU32 8#8 0xDEADBEEF#32) ∧
    decodeTableWord 48 0x560000000000 = none := by decide

/-- The first step after reset runs the placed word. -/
theorem test_withFetchWord : step (State.reset.withFetchWord 48 0x600400000012) = exec (.stU8 4#8 0x12#32) State.reset := rfl

/-- CMD-1: an illegal word is answered, and the decoder registers and the buffer are as before. -/
theorem test_step_illegal : step (accState.withFetchWord 48 0x800000000000) =
    .next { accState with responses := [⟨.illegalCmd, 0#32, Header.zero⟩] } := rfl

/-! ### The CRC-16 validator -/

set_option maxRecDepth 10000 in
/-- CRC-1, CRC-5, CRC-6. -/
theorem test_crc_ping : crc16Upd 0xA001#16 0#16 0x03#8 = 0x0140#16 ∧
    crc16 0xA001#16 [0x03#8, 0x05#8, 0x00#8, 0x00#8] = 0x4510#16 ∧
    crc16 0x8408#16 [0x03#8, 0x05#8, 0x00#8, 0x00#8] = 0x1C70#16 := by decide

set_option maxRecDepth 10000 in
/-- CRC-11 and CRC-12: the check values of R110. -/
theorem test_crc_check_values :
    crc16 0xA001#16 [0x31#8, 0x32#8, 0x33#8, 0x34#8, 0x35#8, 0x36#8, 0x37#8, 0x38#8, 0x39#8] = 0xBB3D#16 ∧
    crc16 0x8408#16 [0x31#8, 0x32#8, 0x33#8, 0x34#8, 0x35#8, 0x36#8, 0x37#8, 0x38#8, 0x39#8] = 0x2189#16 := by decide

set_option maxRecDepth 10000 in
/-- CRC-13 and CRC-15: a residue of zero, and the other generator's frame refused. -/
theorem test_crc_residue : crc16 0xA001#16 [0x03#8, 0x05#8, 0x00#8, 0x00#8, 0x10#8, 0x45#8] = 0x0000#16 ∧
    crc16 0xA001#16 [0x03#8, 0x05#8, 0x00#8, 0x00#8, 0x70#8, 0x1C#8] = 0x3AE8#16 := by decide

set_option maxRecDepth 10000 in
/-- CRC-17: entries of the table form. -/
theorem test_crc_table : crcTable 0xA001#16 0x01#8 = 0xC0C1#16 ∧ crcTable 0xA001#16 0x02#8 = 0xC181#16 ∧
    crcTable 0xA001#16 0x80#8 = 0xA001#16 ∧ crcTable 0xA001#16 0xFF#8 = 0x4040#16 := by decide

/-! ### The decoder -/

/-- DEC-14. -/
theorem test_init_in_data : exec .init (boardState .data 5#8 2#8 0x1234#16 [(3, 7#8)]) =
    .next { State.reset with fr := [(3, 7#8)], responses := [⟨.ok, 0#32, Header.zero⟩] } := rfl

/-- DEC-4: the mismatching `5A` is not tried again. -/
theorem test_rxb_sync2_no_retry : exec (.rxb 0x5A#8) (boardState .sync2 0#8 0#8 0#16 []) =
    .next { State.reset with responses := [incompleteResponse] } := rfl

/-- The last payload byte of DEC-1: stored at `FR[5]`, and on to CRC1 with CRC 0x4510. -/
theorem test_rxb_last_payload_byte :
    receiveByte 0xA001#16 0x00#8 (boardState .data 3#8 2#8 0x50F3#16 [(3, 5#8), (4, 0#8)]) =
      .next { boardState .crc1 3#8 3#8 0x4510#16 [(3, 5#8), (4, 0#8), (5, 0#8)] with responses := [incompleteResponse] } := rfl

set_option maxRecDepth 10000 in
/-- R128's example: `45` is accepted and `46` is not. -/
theorem test_rxb_crc_gate :
    answerOf (receiveByte 0xA001#16 0x45#8 (boardState .crc2 3#8 3#8 0x0045#16 [])) = plain .frameReady 3#32 ∧
    answerOf (receiveByte 0xA001#16 0x46#8 (boardState .crc2 3#8 3#8 0x0045#16 [])) = plain .checksumError 0#32 := by decide

/-! ### The encoder and the read port -/

set_option maxRecDepth 10000 in
/-- ENC-1. -/
theorem test_enc_ping : answerAnd 9 (encodeFrame 0xA001#16 3#8 pingState) =
    some (plain .ok 8#32, [some 0x5A#8, some 0x7E#8, some 0x03#8, some 0x05#8, some 0x00#8, some 0x00#8, some 0x10#8,
      some 0x45#8, none]) := by decide

/-- ENC-5 and ENC-8: the limit, and the lowest unwritten payload byte. -/
theorem test_enc_refused_and_faulted : answerOf (exec (.enc 128#8) State.reset) = plain .encodeError 0#32 ∧
    faultOf (exec (.enc 5#8) (boardState .sync1 0#8 0#8 0#16 [(3, 1#8), (4, 2#8)])) = some (.unwrittenRead 5) := by decide

/-- ENC-13 and ENC-10. -/
theorem test_frd : answerOf (exec (.frd 3#8) (boardState .sync1 0#8 0#8 0#16 [(3, 1#8)])) = plain .ok 1#32 ∧
    answerOf (exec (.frd 133#8) State.reset) = plain .rangeFault 0#32 := by decide

/-- ENC-12: FRD of an unwritten byte. -/
theorem test_frd_unwritten : faultOf (exec (.frd 0#8) (boardState .sync1 0#8 0#8 0#16 [(3, 1#8)])) = some (.unwrittenRead 0) := by decide

/-! ### The header codec -/

/-- HDR-3 and the unpacking of 0x9E6CB5. -/
theorem test_header_pack : Header.pack ⟨1#2, 21#5, 42#6, 10#5, 2#2, 5#4⟩ = 0x595555#24 ∧
    Header.unpack 0x9E6CB5#24 = ⟨1#2, 13#5, 25#6, 19#5, 3#2, 9#4⟩ := by decide

/-- HDR-13, with version 1. -/
theorem test_hdrRd : answerOf (readHeader 1#2 (boardState .data 9#8 1#8 0#16 [(3, 0xB5#8), (4, 0x6C#8), (5, 0x9E#8)])) =
    some ⟨.ok, 0x009E6CB5#32, ⟨1#2, 13#5, 25#6, 19#5, 3#2, 9#4⟩⟩ := by decide

/-- HDR-15's bytes: a version of 2 is refused by version 1. -/
theorem test_hdrRd_version : answerOf (readHeader 1#2 (boardState .sync1 0#8 0#8 0#16 [(3, 0x86#8), (4, 0xE1#8), (5, 0x24#8)])) =
    plain .versionError 0#32 := by decide

/-- HDR.WR of S3's reply header: `PB[0..3] = 09 00 10 00`. -/
theorem test_hdrWr : answerAnd 8 (exec (.hdrWr 0x100009#24) State.reset) =
    some (plain .ok 0#32, [none, none, none, some 0x09#8, some 0x00#8, some 0x10#8, some 0x00#8, none]) := by decide

/-! ### The scalar accessors -/

/-- ACC-1 and ACC-13. -/
theorem test_ldU8 : answerOf (exec (.ldU8 4#8) accState) = plain .ok 0x80#32 ∧
    answerOf (exec (.ldU8 128#8) accState) = plain .rangeFault 0#32 := by decide

/-- ACC-2 and ACC-3. -/
theorem test_ldI8 : answerOf (exec (.ldI8 4#8) accState) = plain .ok 0xFFFFFF80#32 ∧
    answerOf (exec (.ldI8 7#8) accState) = plain .ok 0x7F#32 := by decide

/-- ACC-4, ACC-6 and ACC-12. -/
theorem test_ldU16 : answerOf (exec (.ldU16 4#8) accState) = plain .ok 0xFF80#32 ∧
    answerOf (exec (.ldU16 5#8) accState) = plain .ok 0x1FF#32 ∧
    faultOf (exec (.ldU16 3#8) accState) = some (.unwrittenRead 6) := by decide

/-- ACC-5 and ACC-7. -/
theorem test_ldI16 : answerOf (exec (.ldI16 4#8) accState) = plain .ok 0xFFFFFF80#32 ∧
    answerOf (exec (.ldI16 5#8) accState) = plain .ok 0x1FF#32 := by decide

/-- ACC-9, ACC-11 and ACC-14. -/
theorem test_ldU32 : answerOf (exec (.ldU32 4#8) accState) = plain .ok 0x7F01FF80#32 ∧
    faultOf (exec (.ldU32 5#8) accState) = some (.unwrittenRead 11) ∧
    answerOf (exec (.ldU32 125#8) accState) = plain .rangeFault 0#32 := by decide

/-- ACC-10. -/
theorem test_ldI32 : answerOf (exec (.ldI32 4#8) accState) = plain .ok 0x7F01FF80#32 := by decide

/-- ACC-16. -/
theorem test_stU8 : answerAnd 9 (exec (.stU8 4#8 0x180#32) State.reset) =
    some (plain .ok 0#32, [none, none, none, none, none, none, none, some 0x80#8, none]) := by decide

/-- ACC-17. -/
theorem test_stI8 : answerAnd 9 (exec (.stI8 5#8 0xFFFFFFFE#32) State.reset) =
    some (plain .ok 0#32, [none, none, none, none, none, none, none, none, some 0xFE#8]) := by decide

/-- ACC-18, and ACC-26: nothing is written where the range check fails. -/
theorem test_stU16 : answerAnd 9 (exec (.stU16 4#8 0xBEEF#32) State.reset) =
      some (plain .ok 0#32, [none, none, none, none, none, none, none, some 0xEF#8, some 0xBE#8]) ∧
    exec (.stU16 127#8 0xFFFF#32) accState = .next { accState with responses := [⟨.rangeFault, 0#32, Header.zero⟩] } := by
  exact ⟨by decide, rfl⟩

/-- ACC-20. -/
theorem test_stI16 : answerAnd 11 (exec (.stI16 6#8 0xFFFF8000#32) State.reset) =
    some (plain .ok 0#32, [none, none, none, none, none, none, none, none, none, some 0x00#8, some 0x80#8]) := by decide

/-- ACC-28's store, and ACC-25. -/
theorem test_stU32 : answerAnd 8 (exec (.stU32 0#8 0x12345678#32) State.reset) =
      some (plain .ok 0#32, [none, none, none, some 0x78#8, some 0x56#8, some 0x34#8, some 0x12#8, none]) ∧
    exec (.stU32 125#8 0x01020304#32) accState = .next { accState with responses := [⟨.rangeFault, 0#32, Header.zero⟩] } := by
  exact ⟨by decide, rfl⟩

/-- ACC-23. -/
theorem test_stI32 : answerAnd 11 (exec (.stI32 4#8 0x80000000#32) State.reset) =
    some (plain .ok 0#32, [none, none, none, none, none, none, none, some 0x00#8, some 0x00#8, some 0x00#8, some 0x80#8]) := by decide

/-! ### Witnesses: for each obligation with hypotheses, states and operands that meet all of them, one for each clause -/

theorem witness_EncodeOfDecodedWord : decode 0x6408DEADBEEF#48 = some (.stU32 8#8 0xDEADBEEF#32) := by decide

theorem witness_OpcodeRowsNeverOverlap : ∃ r q, opcodeTable[11]? = some r ∧ opcodeTable[11]? = some q ∧
    rowMatches r 0x600400000012#48 = true ∧ rowMatches q 0x600400000012#48 = true := ⟨_, _, rfl, rfl, by decide, by decide⟩

theorem witness_IllegalWordsAnswered_illegal : (State.reset.issueFirst 0x560000000000#48).pending = [0x560000000000#48] ∧
    (fieldsOf 0x560000000000#48).wellFormed = false := by decide

theorem witness_IllegalWordsAnswered_legal : (State.reset.issueFirst 0x700000000000#48).pending = [0x700000000000#48] ∧
    (fieldsOf 0x700000000000#48).wellFormed = true := by decide

theorem witness_StepRunsDecodedCommand : (State.reset.issueFirst 0x200000000000#48).pending = [0x200000000000#48] ∧
    decode 0x200000000000#48 = some (.enc 0#8) := by decide

theorem witness_IdleStepChangesNothing : State.reset.pending = [] := rfl

/-- ENC 0 from power-on (ENC-2): a next state, by a command other than INIT and RXB. -/
theorem witness_OnlyInitAndRxbWriteRegisters : ∃ t, exec (.enc 0#8) State.reset = .next t ∧ (Instr.enc 0#8) ≠ .init ∧ ∀ b, (Instr.enc 0#8) ≠ .rxb b :=
  ⟨_, rfl, by decide, fun _ => Instr.noConfusion⟩

theorem witness_PowerOnState : ∃ t, exec .init accState = .next t := ⟨_, rfl⟩

/-- A response whose header is not all zero, as OneResponsePerCommand speaks of. -/
theorem witness_OneResponsePerCommand : ∃ t r, readHeader 1#2 pingState = .next t ∧ t.responses = pingState.responses ++ [r] ∧
    r.hdr ≠ Header.zero := ⟨_, _, rfl, rfl, by decide⟩

theorem reset_registersLegal : State.reset.registersLegal := ⟨by decide, by decide, by decide, by decide⟩

theorem reset_legal : State.reset.legal := ⟨reset_registersLegal, by decide, rfl⟩

/-- A legal state in DATA, with the last payload byte of the longest frame missing. -/
def lastByteState : State := boardState .data 128#8 127#8 0#16 []

theorem lastByteState_registersLegal : lastByteState.registersLegal := ⟨by decide, by decide, by decide, by decide⟩

theorem lastByteState_legal : lastByteState.legal := ⟨lastByteState_registersLegal, by decide, rfl⟩

/-- The longest frame's last payload byte goes to `FR[130]`, the highest byte RXB writes. -/
theorem witness_StepKeepsLegalStates : lastByteState.legal ∧
    ∃ t, step (lastByteState.issueFirst 0x10AA00000000#48) = .next t ∧ t.byte 130 = some 0xAA#8 ∧ t.byte 131 = none :=
  ⟨lastByteState_legal, _, rfl, rfl, rfl⟩

theorem witness_OnlyUnwrittenReadsStop : (State.reset.issueFirst 0x708400000000#48).legal ∧
    step (State.reset.issueFirst 0x708400000000#48) = .fault (.unwrittenRead 132) := ⟨reset_legal, rfl⟩

/-- CommandsWriteExactlyTheirBytes, both cases of a byte. -/
theorem witness_CommandsWriteExactlyTheirBytes : (∃ t, exec (.stU32 124#8 0x01020304#32) State.reset = .next t) ∧
    State.reset.writesByte (.stU32 124#8 0x01020304#32) 130 ∧ ¬ State.reset.writesByte (.stU32 124#8 0x01020304#32) 131 :=
  ⟨⟨_, rfl⟩, by simp [State.writesByte], by simp [State.writesByte]⟩

theorem witness_UnwrittenReadNamesLowestByte : exec (.ldU32 5#8) accState = .fault (.unwrittenRead 11) ∧
    readsByte (.ldU32 5#8) 11 ∧ accState.byte 11 = none := ⟨rfl, by simp [readsByte], rfl⟩

theorem witness_WrittenBytesStayWritten : ∃ t, step (accState.issueFirst 0x000000000000#48) = .next t ∧ accState.byte 10 ≠ none :=
  ⟨_, rfl, by decide⟩

theorem witness_ErrorsArePrecise_encode : ∃ t r, step (State.reset.issueFirst 0x208000000000#48) = .next t ∧
    t.responses = State.reset.responses ++ [r] ∧ r.status = .encodeError := ⟨_, _, rfl, rfl, rfl⟩

theorem witness_ErrorsArePrecise_range : ∃ t r, step (State.reset.issueFirst 0x647D01020304#48) = .next t ∧
    t.responses = State.reset.responses ++ [r] ∧ r.status = .rangeFault := ⟨_, _, rfl, rfl, rfl⟩

theorem witness_ErrorsArePrecise_illegal : ∃ t r, step (State.reset.issueFirst 0x800000000000#48) = .next t ∧
    t.responses = State.reset.responses ++ [r] ∧ r.status = .illegalCmd := ⟨_, _, rfl, rfl, rfl⟩

/-- A header whose version is wrong, whatever the right one is. -/
def wrongVersionState : State :=
  boardState .sync1 0#8 0#8 0#16 [(3, (Config.version + 1#2).setWidth 8), (4, 0#8), (5, 0#8)]

theorem witness_ErrorsArePrecise_version : ∃ t r, step (wrongVersionState.issueFirst 0x300000000000#48) = .next t ∧
    t.responses = wrongVersionState.responses ++ [r] ∧ r.status = .versionError := by
  refine ⟨_, _, (readHeader_next (version := Config.version) (s := wrongVersionState)).2 ⟨_, rfl, .inr ⟨?_, rfl⟩⟩, rfl, rfl⟩
  generalize Config.version = v
  revert v
  decide

theorem witness_PassingTrailerUnique : (0xA001#16).getLsbD 15 = true := by decide

theorem witness_RxbDetectsSync : (boardState .sync1 0#8 0#8 0#16 []).state = .sync1 ∧
    (boardState .sync2 0#8 0#8 0#16 []).state = .sync2 := ⟨rfl, rfl⟩

/-- Both clauses of RxbDecodesLength at their boundary: 129 and 128. -/
theorem witness_RxbDecodesLength : (boardState .length 0#8 0#8 0#16 []).state = .length ∧ 128 < (129#8).toNat ∧ (128#8).toNat ≤ 128 := by
  decide

theorem witness_RxbStoresPayloadByte : lastByteState.state = .data ∧ lastByteState.registersLegal :=
  ⟨rfl, lastByteState_registersLegal⟩

theorem witness_RxbChecksTrailer : (boardState .crc1 3#8 3#8 0x4510#16 []).state = .crc1 ∧
    (boardState .crc2 3#8 3#8 0x0045#16 []).state = .crc2 := ⟨rfl, rfl⟩

theorem witness_RxbTakesEveryByte : (boardState .crc2 3#8 3#8 0x0045#16 []).registersLegal ∧
    (boardState .crc2 3#8 3#8 0x0045#16 []).state = .crc2 ∧ State.reset.registersLegal ∧ State.reset.state ≠ .crc2 :=
  ⟨⟨by decide, by decide, by decide, by decide⟩, rfl, reset_registersLegal, by decide⟩

/-- FrameReceptionPromise at the longest frame. -/
theorem witness_FrameReceptionPromise : State.reset.state = .sync1 ∧ (128#8).toNat ≤ 128 ∧
    (List.replicate 128 0xFF#8).length = (128#8).toNat := ⟨rfl, by decide, by simp⟩

theorem witness_TruncatedFrameAbsorbsBytes : lastByteState.state = .data ∧ lastByteState.registersLegal ∧
    [0x5A#8].length = lastByteState.len.toNat - lastByteState.idx.toNat := ⟨rfl, lastByteState_registersLegal, by decide⟩

theorem witness_SyncRunParityDecidesFrame : State.reset.state = .sync1 := rfl

theorem witness_ZeroLengthFrame : State.reset.state = .sync1 := rfl

/-- The three clauses of EncFramesPayload: a refused length, a written payload, and an unwritten byte after a written one. -/
theorem witness_EncFramesPayload_refused : 128 ≤ (128#8).toNat := by decide

theorem witness_EncFramesPayload_framed : (3#8).toNat < 128 ∧ [0x05#8, 0x00#8, 0x00#8].length = (3#8).toNat ∧
    pingState.holds 3 [0x05#8, 0x00#8, 0x00#8] := ⟨by decide, by decide, readRun_eq_holds.1 rfl⟩

theorem witness_EncFramesPayload_unwritten : (127#8).toNat < 128 ∧ 3 < (127#8).toNat ∧ pingState.byte (3 + 3) = none ∧
    ∀ j, j < 3 → pingState.byte (3 + j) ≠ none := by decide

theorem witness_EncodedFrameIsAccepted : ∃ t, (3#8).toNat < 128 ∧ pingState.state = .sync1 ∧ exec (.enc 3#8) pingState = .next t :=
  ⟨_, by decide, rfl, rfl⟩

set_option maxRecDepth 10000 in
/-- A received zero-length frame is valid for every generator (R133). -/
theorem witness_ReceivedFrameReencodes : ∃ t, State.reset.state = .sync1 ∧ (0#8).toNat ≤ 127 ∧ ([] : List Byte).length = (0#8).toNat ∧
    crc16 Config.crcPoly (0#8 :: [] ++ [0#8, 0#8]) = 0#16 ∧
    runCommands (rxs (wireFrame 0#8 [] 0#8 0#8)) State.reset = .next t ∧ t.sameBytes t 3 (0#8).toNat :=
  ⟨_, rfl, by decide, rfl, rfl, rfl, fun _ _ => rfl⟩

theorem witness_FrdReadsFrameByte : 133 ≤ (133#8).toNat ∧ ((132#8).toNat < 133 ∧ State.reset.byte (132#8).toNat = none) ∧
    ((3#8).toNat < 133 ∧ pingState.byte (3#8).toNat = some 0x05#8) := by decide

theorem witness_FrdOfUnusedByteFaults : State.reset.legal := reset_legal

theorem witness_FrdAgreesWithByteLoad : (127#8).toNat < 128 := by decide

theorem witness_TxfSendsFrame : 128 ≤ (255#8).toNat ∧ (3#8).toNat < 128 ∧ [0x05#8, 0x00#8, 0x00#8].length = (3#8).toNat ∧
    pingState.holds 3 [0x05#8, 0x00#8, 0x00#8] := ⟨by decide, by decide, by decide, readRun_eq_holds.1 rfl⟩

/-- A header of the right version, whatever it is. -/
theorem witness_HdrRdUnpacksHeader_version :
    (boardState .sync1 0#8 0#8 0#16 [(3, Config.version.setWidth 8), (4, 0#8), (5, 0#8)]).holds 3
      [Config.version.setWidth 8, 0#8, 0#8] ∧
    (0#8 ++ 0#8 ++ Config.version.setWidth 8 : BitVec 24).extractLsb' 0 2 = Config.version := by
  refine ⟨readRun_eq_holds.1 rfl, ?_⟩
  generalize Config.version = v
  revert v
  decide

/-- A header of a wrong version, whatever the right one is. -/
theorem witness_HdrRdUnpacksHeader_mismatch :
    wrongVersionState.holds 3
      [(Config.version + 1#2).setWidth 8, 0#8, 0#8] ∧
    (0#8 ++ 0#8 ++ (Config.version + 1#2).setWidth 8 : BitVec 24).extractLsb' 0 2 ≠ Config.version := by
  refine ⟨readRun_eq_holds.1 rfl, ?_⟩
  generalize Config.version = v
  revert v
  decide

theorem witness_HdrRdUnpacksHeader_unwritten : 2 < 3 ∧ (boardState .sync1 0#8 0#8 0#16 [(3, 1#8), (4, 0#8)]).byte (3 + 2) = none ∧
    ∀ j, j < 2 → (boardState .sync1 0#8 0#8 0#16 [(3, 1#8), (4, 0#8)]).byte (3 + j) ≠ none := by decide

theorem witness_HeaderRoundTrip : ∃ t h g, exec (.hdrWr h) State.reset = .next t ∧ t.sameBytes t 3 3 ∧
    h.extractLsb' 0 2 = Config.version ∧ (∃ u, exec (.hdrWr g) State.reset = .next u ∧ u.sameBytes u 3 3) ∧
    g.extractLsb' 0 2 ≠ Config.version := by
  refine ⟨_, Config.version.setWidth 24, (Config.version + 1#2).setWidth 24, rfl, fun _ _ => rfl, ?_, ⟨_, rfl, fun _ _ => rfl⟩, ?_⟩ <;>
    (generalize Config.version = v; revert v; decide)

/-- The three clauses of ByteLoads, at offsets 128 and 127. -/
theorem witness_ByteLoads : 128 < (128#8).toNat + 1 ∧
    ((127#8).toNat + 1 ≤ 128 ∧ State.reset.byte (3 + (127#8).toNat) = none) ∧
    ((127#8).toNat + 1 ≤ 128 ∧ topState.byte (3 + (127#8).toNat) = some 0x84#8) := by decide

/-- The three clauses of HalfWordLoads, at offsets 127 and 126 and with the second byte unwritten. -/
theorem witness_HalfWordLoads : 128 < (127#8).toNat + 2 ∧
    ((3#8).toNat + 2 ≤ 128 ∧ 1 < 2 ∧ (boardState .sync1 0#8 0#8 0#16 [(6, 1#8)]).byte (3 + (3#8).toNat + 1) = none ∧
      ∀ j, j < 1 → (boardState .sync1 0#8 0#8 0#16 [(6, 1#8)]).byte (3 + (3#8).toNat + j) ≠ none) ∧
    ((126#8).toNat + 2 ≤ 128 ∧ topState.holds (3 + (126#8).toNat) [3#8, 0x84#8]) :=
  ⟨by decide, by decide, by decide, readRun_eq_holds.1 rfl⟩

/-- The three clauses of WordLoads, at offsets 125 and 124 and with the fourth byte unwritten (ACC-11). -/
theorem witness_WordLoads : 128 < (125#8).toNat + 4 ∧
    ((5#8).toNat + 4 ≤ 128 ∧ 3 < 4 ∧ accState.byte (3 + (5#8).toNat + 3) = none ∧
      ∀ j, j < 3 → accState.byte (3 + (5#8).toNat + j) ≠ none) ∧
    ((124#8).toNat + 4 ≤ 128 ∧ topState.holds (3 + (124#8).toNat) [1#8, 2#8, 3#8, 0x84#8]) :=
  ⟨by decide, by decide, by decide, readRun_eq_holds.1 rfl⟩

theorem witness_ByteStores : 128 < (128#8).toNat + 1 ∧ (127#8).toNat + 1 ≤ 128 := by decide

theorem witness_HalfWordStores : 128 < (127#8).toNat + 2 ∧ (126#8).toNat + 2 ≤ 128 := by decide

theorem witness_WordStores : 128 < (125#8).toNat + 4 ∧ (124#8).toNat + 4 ≤ 128 := by decide

/-- The three clauses of StoreThenLoad, each at its highest offset. -/
theorem witness_StoreThenLoad_byte : ∃ t, (127#8).toNat + 1 ≤ 128 ∧ exec (.stI8 127#8 0x80#32) State.reset = .next t ∧
    t.sameBytes t (3 + (127#8).toNat) 1 := ⟨_, by decide, rfl, fun _ _ => rfl⟩

theorem witness_StoreThenLoad_half : ∃ t, (126#8).toNat + 2 ≤ 128 ∧ exec (.stU16 126#8 0x8000#32) State.reset = .next t ∧
    t.sameBytes t (3 + (126#8).toNat) 2 := ⟨_, by decide, rfl, fun _ _ => rfl⟩

theorem witness_StoreThenLoad_word : ∃ t, (124#8).toNat + 4 ≤ 128 ∧ exec (.stU32 124#8 0x80000000#32) State.reset = .next t ∧
    t.sameBytes t (3 + (124#8).toNat) 4 := ⟨_, by decide, rfl, fun _ _ => rfl⟩

theorem witness_NarrowLoadsAreSlices : exec (.ldU32 124#8) topState = .next (topState.answer .ok 0x84030201#32) := rfl
end

namespace Sys2Proof.Machine

/-! ### Every command answers once

`effect_of_exec` says that a command which completes does so in one of the cases of `Effect`. Here stand the converse, that no
command is refused, and what the cases have in common: one record added, and the command port left alone. -/

theorem exec_rxb (b : Byte) (s : State) : exec (.rxb b) s = receiveByte Config.crcPoly b s := rfl

theorem exec_frd (a : Byte) (s : State) : exec (.frd a) s = execFrd a s := rfl

/-- A command never ends in a refusal (R211). -/
theorem exec_ne_refused (i : Instr) (s : State) (r : Refusal) : exec i s ≠ .refused r := by
  cases i with
  | init => simp [exec, execInit]
  | rxb b =>
    rw [exec_rxb, receiveByte_eq]
    split_ifs <;> simp
  | enc n => exact encodeFrame_not_refused
  | hdrRd => exact readHeader_not_refused
  | hdrWr h => simp [exec, execHdrWr]
  | frd a =>
    rw [exec_frd, execFrd_eq]
    split_ifs
    · cases s.byte a.toNat <;> simp
    · simp
  | ldU8 | ldI8 | ldU16 | ldI16 | ldU32 | ldI32 => exact load_not_refused
  | stU8 | stI8 | stU16 | stI16 | stU32 | stI32 => rw [exec_store rfl, store_eq]; simp

/-- The converse of `effect_of_exec`: every case of `Effect` is an answer of the command. -/
theorem Effect.exec_eq {s t : State} {i : Instr} (h : Effect s i t) : exec i s = .next t := by
  cases h with
  | init | hdrWritten => rfl
  | rxb b inside =>
    rw [exec_rxb, receiveByte_eq]
    exact if_neg fun ⟨hs, out⟩ => by have := inside hs; omega
  | encRefused n long => exact encodeFrame_next.2 (.inl ⟨long, rfl⟩)
  | encFramed n short payload read => exact encodeFrame_next.2 (.inr ⟨short, payload, read, rfl⟩)
  | hdrRead bs read version => exact readHeader_next.2 ⟨bs, read, .inl ⟨version, rfl⟩⟩
  | hdrRejected bs read version => exact readHeader_next.2 ⟨bs, read, .inr ⟨version, rfl⟩⟩
  | loadRefused i n signed o ops out => rw [exec_load ops]; exact load_next.2 (.inl ⟨out, rfl⟩)
  | loaded i n signed o ops inside bs read => rw [exec_load ops]; exact load_next.2 (.inr ⟨inside, bs, read, rfl⟩)
  | storeRefused i n o v ops out => rw [exec_store ops, store_eq, if_neg (by omega)]
  | stored i n o v ops inside => rw [exec_store ops, store_eq, if_pos inside]
  | frdRefused a out => rw [exec_frd, execFrd_eq, if_neg (by omega)]
  | frdRead a b inside read => rw [exec_frd, execFrd_eq, if_pos inside, read]

/-- The record RXB adds: the CRC gate's in CRC2, INCOMPLETE otherwise (R122, R128). -/
def rxbResponse (poly : Half) (b : Byte) (s : State) : Response :=
  if s.state = .crc2 then crcGate (crc16Upd poly s.crc b) s.len else incompleteResponse

/-- No RXB returns header fields (R30). -/
theorem rxbResponse_hdr (poly : Half) (b : Byte) (s : State) : (rxbResponse poly b s).hdr = Header.zero := by
  unfold rxbResponse crcGate
  split_ifs <;> rfl

theorem received_responses_eq (poly : Half) (b : Byte) (s : State) :
    (received poly b s).responses = s.responses ++ [rxbResponse poly b s] :=
  received_responses poly b s

/-- Whatever a command does, it adds one record, whose header fields are 0 but in a successful HDR.RD (R28, R30). -/
theorem Effect.responds {s t : State} {i : Instr} (h : Effect s i t) :
    ∃ r : Response, t.responses = s.responses ++ [r] ∧ (r.hdr ≠ Header.zero → i = .hdrRd ∧ r.status = .ok) := by
  cases h with
  | hdrRead => exact ⟨_, rfl, fun _ => ⟨rfl, rfl⟩⟩
  | rxb b => exact ⟨_, received_responses_eq _ b s, fun nonzero => absurd (rxbResponse_hdr _ b s) nonzero⟩
  | _ => exact ⟨_, rfl, fun nonzero => absurd rfl nonzero⟩

/-- No command touches the command port (R28). -/
theorem Effect.pending_eq {s t : State} {i : Instr} (h : Effect s i t) : t.pending = s.pending := by
  cases h with
  | rxb b => exact received_pending _ b s
  | _ => rfl

/-! ### The ports do not matter to a command -/

/-- The state with other contents of its two ports. -/
def State.withPorts (s : State) (q : List CommandWord) (rs : List Response) : State :=
  { s with pending := q, responses := rs }

/-- Storing a payload byte does not involve the ports. -/
theorem storePayloadByte_withPorts (poly : Half) (b : Byte) (s : State) (q : List CommandWord) (rs : List Response) :
    storePayloadByte poly b (s.withPorts q rs) = (storePayloadByte poly b s).withPorts q rs := by
  simp only [storePayloadByte, apply_ite (State.withPorts · q rs)]
  rfl

/-- RXB does with other ports what it does with these, and adds the same record. -/
theorem received_withPorts (poly : Half) (b : Byte) (s : State) (q : List CommandWord) (rs : List Response) :
    received poly b (s.withPorts q rs) = (received poly b s).withPorts q (rs ++ [rxbResponse poly b s]) := by
  obtain ⟨state, len, idx, crc, fr, pending, responses⟩ := s
  cases state with
  | length => simp only [received, State.withPorts]; split_ifs <;> rfl
  | data =>
    have store := storePayloadByte_withPorts poly b ⟨.data, len, idx, crc, fr, pending, responses⟩ q rs
    exact congrArg (State.answer · .incomplete 0#32) store
  | _ => rfl

/-- A command completes with other ports as it does with these, adding the same record to the other responses. -/
theorem Effect.withPorts {s t : State} {i : Instr} {r : Response} (h : Effect s i t)
    (hr : t.responses = s.responses ++ [r]) (q : List CommandWord) (rs : List Response) :
    Effect (s.withPorts q rs) i (t.withPorts q (rs ++ [r])) := by
  cases h
  case rxb b inside =>
    rw [received_responses_eq] at hr
    cases List.append_cancel_left hr
    exact received_withPorts Config.crcPoly b s q rs ▸ .rxb b inside
  all_goals cases List.append_cancel_left hr
  case init => exact .init
  case encRefused n long => exact .encRefused n long
  case encFramed n short payload read => exact .encFramed n short payload read
  case hdrRead bs read version => exact .hdrRead bs read version
  case hdrRejected bs read version => exact .hdrRejected bs read version
  case hdrWritten h => exact .hdrWritten h
  case loadRefused n signed o out ops => exact .loadRefused i n signed o ops out
  case loaded n signed o inside bs read ops => exact .loaded i n signed o ops inside bs read
  case storeRefused n o v out ops => exact .storeRefused i n o v ops out
  case stored n o v inside ops => exact .stored i n o v ops inside
  case frdRefused a out => exact .frdRefused a out
  case frdRead a b inside read => exact .frdRead a b inside read

/-- A command stops with other ports as it does with these. -/
theorem exec_fault_withPorts {s : State} {i : Instr} {f : Fault} (h : exec i s = .fault f)
    (q : List CommandWord) (rs : List Response) : exec i (s.withPorts q rs) = .fault f := by
  rw [exec_fault] at h ⊢
  exact h

/-! ### What each command leaves of the registers and the buffer -/

/-- Only INIT and RXB write the decoder registers (R20, R26). -/
theorem Effect.registers_eq {s t : State} {i : Instr} (h : Effect s i t) (notInit : i ≠ .init) (notRxb : ∀ b, i ≠ .rxb b) :
    t.state = s.state ∧ t.len = s.len ∧ t.idx = s.idx ∧ t.crc = s.crc := by
  cases h with
  | init => exact absurd rfl notInit
  | rxb b => exact absurd rfl (notRxb b)
  | _ => exact ⟨rfl, rfl, rfl, rfl⟩

/-- In DATA the index is below 128, so counting a byte does not wrap (R25, R126). -/
theorem State.registersLegal.bumpIdx_toNat {s : State} (hs : s.registersLegal) (hdata : s.state = .data) :
    (s.idx + 1#8).toNat = s.idx.toNat + 1 := by
  obtain ⟨hlen, data, -, -⟩ := hs
  obtain ⟨-, hidx⟩ := data hdata
  bv_omega

/-- RXB keeps R25, transition by transition (R123 to R128). -/
theorem received_registersLegal (poly : Half) (b : Byte) {s : State} (hs : s.registersLegal) :
    (received poly b s).registersLegal := by
  have noWrap := hs.bumpIdx_toNat
  obtain ⟨hlen, data, trailer, hidx⟩ := hs
  simp only [State.registersLegal, received_state, received_len, received_idx]
  cases h : s.state with
  | sync1 => by_cases hb : b = 0x5A#8 <;> simp [hb, hlen, hidx]
  | sync2 => by_cases hb : b = 0x7E#8 <;> simp [hb, hlen, hidx]
  | length =>
    by_cases hb : 128 < b.toNat
    · simp [hb, Nat.not_le_of_lt hb, hlen, hidx]
    · have hb' : b.toNat ≤ 128 := Nat.le_of_not_lt hb
      by_cases h0 : 0 < b.toNat
      · simp [hb, hb', h0]; omega
      · have : b = 0#8 := by bv_omega
        simp [this]
  | data =>
    obtain ⟨-, inside⟩ := data h
    have bump := noWrap h
    by_cases last : s.idx + 1#8 = s.len
    · simp [last, hlen]
    · have : s.idx.toNat + 1 ≠ s.len.toNat := fun heq => last (by bv_omega)
      simp [last, hlen, bump]; omega
  | crc1 => simp [hlen, trailer (.inl h)]
  | crc2 => simp [hlen, hidx]

/-- Every command keeps R25: INIT writes values it admits, RXB moves along the decoder's transitions, and no other command
writes a register. -/
theorem Effect.registersLegal {s t : State} {i : Instr} (h : Effect s i t) (hs : s.registersLegal) : t.registersLegal := by
  cases h with
  | init => exact ⟨by simp, by simp, by simp, by simp⟩
  | rxb b => exact received_registersLegal _ b hs
  | _ => exact hs

/-- What a legal state says of its buffer: the canonical form, and `FR[132]` unwritten (R50). -/
def Memory.bufferLegal (m : List Host.Cell) : Prop := Memory.wf m ∧ Memory.read m 132 = none

/-- Writes below `FR[132]` keep a legal buffer legal. -/
theorem Memory.bufferLegal.writeRun {m : List Host.Cell} {a : Nat} {bs : List Byte} (hm : Memory.bufferLegal m)
    (h : a + bs.length ≤ 132) : Memory.bufferLegal (Memory.writeRun m a bs) := by
  obtain ⟨wf, unwritten⟩ := hm
  exact ⟨Memory.wf_writeRun wf (by omega), by rw [Memory.read_writeRun_outside (.inr h), unwritten]⟩

/-- No command writes above `FR[131]` from a state that meets R25 (R52). -/
theorem Effect.bufferLegal {s t : State} {i : Instr} (h : Effect s i t) (hs : s.registersLegal)
    (hm : Memory.bufferLegal s.fr) : Memory.bufferLegal t.fr := by
  cases h with
  | rxb b =>
    rw [received_fr]
    split_ifs with hdata
    · obtain ⟨hlen, data, -, -⟩ := hs
      obtain ⟨-, hidx⟩ := data hdata
      exact hm.writeRun (bs := [b]) (by simp; omega)
    · exact hm
  | encFramed n short payload =>
    have headWritten := hm.writeRun (a := 0) (bs := [Config.sync1, Config.sync2, n]) (by simp)
    exact headWritten.writeRun (by simp [payloadAddr, crcTrailer]; omega)
  | hdrWritten => exact hm.writeRun (by simp)
  | stored i n o v ops inside => exact hm.writeRun (by simp [payloadAddr]; omega)
  | _ => exact hm

/-- Every command keeps the legal states legal (R25, R50). -/
theorem Effect.legal {s t : State} {i : Instr} (h : Effect s i t) (hs : s.legal) : t.legal := by
  obtain ⟨registers, buffer⟩ := hs
  exact ⟨h.registersLegal registers, h.bufferLegal registers buffer⟩

/-- Every step keeps the legal states legal: taking a word and answering it ILLEGAL_CMD change only the ports, of which
`State.legal` says nothing. -/
theorem step_legal {s t : State} (hs : s.legal) (h : step s = .next t) : t.legal := by
  cases hp : s.pending with
  | nil => cases (step_idle hp).symm.trans h; exact hs
  | cons c rest =>
    rw [step_eq hp] at h
    cases hd : decode c with
    | none => rw [hd] at h; cases h; exact hs
    | some i => rw [hd] at h; exact (effect_of_exec h).legal hs

/-! ### Steps through queued words -/

/-- The encoder's fields meet the condition of exactly their own row (R71 to R75, R78). -/
theorem decode_encode (i : Instr) : decode (encode i) = some i := by
  rw [encode, decode_wordOf]
  cases i <;> simp [encodeFields]

/-- A step with an encoded command at the head of the port runs that command (R75). -/
theorem step_encoded (i : Instr) (s : State) (q : List CommandWord) :
    step { s with pending := encode i :: q } = exec i { s with pending := q } := by
  rw [step_eq rfl, decode_encode]

/-- What is still queued has no effect on a command that completes. -/
theorem exec_withPending {i : Instr} {s t : State} (h : exec i s = .next t) (q : List CommandWord) :
    exec i { s with pending := q } = .next { t with pending := q } := by
  have effect := effect_of_exec h
  obtain ⟨r, hr, -⟩ := effect.responds
  have moved := (effect.withPorts hr q s.responses).exec_eq
  rwa [← hr] at moved

/-- Steps through queued words are a run of the commands they encode (R28, R60, R260). -/
theorem runSteps_encoded (is : List Instr) (s : State) (rest : List CommandWord) :
    runSteps is.length { s with pending := is.map encode ++ rest } = runCommands is { s with pending := rest } := by
  induction is generalizing s with
  | nil => rfl
  | cons i is ih =>
    rw [List.length_cons, List.map_cons, List.cons_append, runSteps, step_encoded, runCommands]
    cases h : exec i { s with pending := rest } with
    | next t =>
      have portKept : t.pending = rest := (effect_of_exec h).pending_eq
      subst portKept
      rw [exec_withPending h]
      exact ih t
    | fault f =>
      have stopped : exec i { s with pending := is.map encode ++ rest } = .fault f := exec_fault_withPorts h _ s.responses
      rw [stopped]
    | refused r => exact absurd h (exec_ne_refused i _ r)

end Sys2Proof.Machine

section
open Sys2Proof Sys2Proof.Machine

/-- Settles O15: each command keeps R25 and writes only below `FR[132]`, and an idle or illegal step changes only the ports. -/
theorem stepKeepsLegalStates : Obligations.StepKeepsLegalStates :=
  fun _ _ legal next => step_legal legal next

/-- Settles O10, by induction on the commands: each step decodes its word back and runs its command, to which the words behind
it do not matter. -/
theorem queuedCommandsRunInOrder : Obligations.QueuedCommandsRunInOrder :=
  runSteps_encoded

/-- Settles O11, over the cases in which a command completes. -/
theorem oneResponsePerCommand : Obligations.OneResponsePerCommand := by
  intro i s t h
  have effect := effect_of_exec h
  exact ⟨effect.pending_eq, effect.responds⟩

/-- Settles O12: a completing command completes with any ports and adds the same record; a fault depends on no port. -/
theorem earlierResponsesDoNotMatter : Obligations.EarlierResponsesDoNotMatter := by
  intro i s q rs
  cases h : exec i s with
  | next t =>
    have effect := effect_of_exec h
    obtain ⟨r, hr, -⟩ := effect.responds
    simp only [hr, List.drop_left]
    exact (effect.withPorts hr q rs).exec_eq
  | fault f => exact exec_fault_withPorts h q rs
  | refused r => exact absurd h (exec_ne_refused i s r)

/-- Settles O17, over the cases in which a command completes. -/
theorem onlyInitAndRxbWriteRegisters : Obligations.OnlyInitAndRxbWriteRegisters :=
  fun _ _ _ h notInit notRxb => (effect_of_exec h).registers_eq notInit notRxb

/-- Settles O8, by what a step does with the oldest word. -/
theorem stepRunsDecodedCommand : Obligations.StepRunsDecodedCommand := by
  intro s c rest i hp hd
  rw [step_eq hp, hd]

/-- Settles O9, by what a step does without a word. -/
theorem idleStepChangesNothing : Obligations.IdleStepChangesNothing :=
  fun _ hp => step_idle hp

/-- Settles O13: the registers at reset are those INIT writes, and INIT leaves the buffer alone. -/
theorem powerOnState : Obligations.PowerOnState := by
  refine ⟨rfl, rfl, rfl, rfl, Memory.read_nil, fun s t h => ?_⟩
  cases h
  exact ⟨rfl, rfl, rfl, rfl, rfl⟩

/-- Settles O14: the registers are 0 in SYNC1, and no byte is written. -/
theorem powerOnStateLegal : Obligations.PowerOnStateLegal := by
  have registers : State.reset.registersLegal := ⟨by decide, by decide, by decide, by decide⟩
  exact ⟨registers, Memory.wf_nil, Memory.read_nil 132⟩

end

namespace Sys2Proof.Machine

/-! ### Held bytes -/

/-- Holding two runs in a row is holding each of them. -/
theorem holds_append {s : State} {a : Nat} {bs cs : List Byte} :
    s.holds a (bs ++ cs) ↔ s.holds a bs ∧ s.holds (a + bs.length) cs := by
  constructor
  · intro h
    refine ⟨fun k hk => ?_, fun k hk => ?_⟩
    · rw [h k (by simp; omega), List.getElem_append_left hk]
    · rw [Nat.add_assoc, h (bs.length + k) (by simpa using hk), List.getElem_append_right (by omega)]
      simp
  · rintro ⟨hbs, hcs⟩ k hk
    rw [List.length_append] at hk
    rw [List.getElem_append]
    split_ifs with inside
    · exact hbs k inside
    · have h := hcs (k - bs.length) (by omega)
      rwa [show a + bs.length + (k - bs.length) = a + k by omega] at h

@[simp] theorem holds_nil (s : State) (a : Nat) : s.holds a [] := fun k hk => absurd hk (Nat.not_lt_zero k)

theorem holds_cons {s : State} {a : Nat} {b : Byte} {bs : List Byte} :
    s.holds a (b :: bs) ↔ s.byte a = some b ∧ s.holds (a + 1) bs := by
  have single : s.holds a [b] ↔ s.byte a = some b :=
    ⟨fun h => h 0 Nat.one_pos, fun h k hk => by obtain rfl := Nat.lt_one_iff.1 hk; exact h⟩
  rw [← single]
  exact holds_append (bs := [b])

/-- A byte inside a held run is written. -/
theorem State.holds.byte_ne_none {s : State} {a k : Nat} {bs : List Byte} (h : s.holds a bs) (low : a ≤ k)
    (high : k < a + bs.length) : s.byte k ≠ none := by
  obtain ⟨j, rfl⟩ := Nat.exists_eq_add_of_le low
  rw [h j (by omega)]
  exact Option.some_ne_none _

/-! ### The lowest unwritten byte a command reads -/

/-- A run of reads stops on `a` exactly when `a` is the lowest unwritten byte of the run (R58). -/
theorem readRun_eq_unwritten {s : State} {b n a : Nat} :
    Memory.readRun s.fr b n = .error (.unwrittenRead a) ↔
      (b ≤ a ∧ a < b + n) ∧ s.byte a = none ∧ ∀ k, k < a → b ≤ k → s.byte k ≠ none := by
  rw [Memory.readRun_eq_error]
  constructor
  · rintro ⟨k, hk, ⟨⟩, unwritten, lower⟩
    refine ⟨by omega, unwritten, fun j hj low => ?_⟩
    have written := lower (j - b) (by omega)
    rwa [Nat.add_sub_cancel' low] at written
  · rintro ⟨⟨low, high⟩, unwritten, lower⟩
    obtain ⟨k, rfl⟩ := Nat.exists_eq_add_of_le low
    exact ⟨k, by omega, rfl, unwritten, fun j hj => lower _ (by omega) (by omega)⟩

/-- `a` is the lowest unwritten byte in the reads column of a command (R52, R58). -/
def State.lowestUnwrittenRead (s : State) (i : Instr) (a : Nat) : Prop :=
  readsByte i a ∧ s.byte a = none ∧ ∀ k, k < a → readsByte i k → s.byte k ≠ none

/-- A command that reads one run of bytes, once its operand passes a check, stops on the lowest unwritten byte of that run. -/
theorem fault_iff_lowest_of_run {i : Instr} {s : State} {inRange : Prop} {b n : Nat}
    (reads : ∀ k, readsByte i k ↔ inRange ∧ b ≤ k ∧ k < b + n)
    (faults : ∀ f, exec i s = .fault f ↔ inRange ∧ Memory.readRun s.fr b n = .error f) (a : Nat) :
    exec i s = .fault (.unwrittenRead a) ↔ s.lowestUnwrittenRead i a := by
  rw [faults, readRun_eq_unwritten, State.lowestUnwrittenRead]
  simp only [reads]
  constructor
  · rintro ⟨ok, ⟨low, high⟩, unwritten, lower⟩
    exact ⟨⟨ok, low, high⟩, unwritten, fun k hk ⟨_, hb, _⟩ => lower k hk hb⟩
  · rintro ⟨⟨ok, low, high⟩, unwritten, lower⟩
    exact ⟨ok, ⟨low, high⟩, unwritten, fun k hk hb => lower k hk ⟨ok, hb, by omega⟩⟩

theorem load_fault_iff_lowest {i : Instr} {n : Nat} {signed : Bool} {o : Byte}
    (ops : loadOperands i = some (n, signed, o)) (s : State) (a : Nat) :
    exec i s = .fault (.unwrittenRead a) ↔ s.lowestUnwrittenRead i a :=
  fault_iff_lowest_of_run (readsByte_load ops) (fun f => by rw [exec_load ops, load_fault]; rfl) a

/-- FRD reads a run of one byte (R158). -/
theorem frd_fault (a : Byte) (s : State) (f : Fault) :
    exec (.frd a) s = .fault f ↔ a.toNat < 133 ∧ Memory.readRun s.fr a.toNat 1 = .error f := by
  rw [exec_frd, execFrd_eq]
  by_cases inside : a.toNat < 133
  · cases hb : s.byte a.toNat <;> rw [State.byte] at hb <;> simp [inside, Memory.readRun, hb]
  · simp [inside]

/-- A command that never stops on an unwritten byte and reads none: both sides are false. -/
theorem fault_iff_lowest_of_no_read {i : Instr} {s : State} {a : Nat} (reads : ¬ readsByte i a)
    (noFault : exec i s ≠ .fault (.unwrittenRead a)) :
    exec i s = .fault (.unwrittenRead a) ↔ s.lowestUnwrittenRead i a :=
  iff_of_false noFault fun h => reads h.1

/-- Every command stops with UNWRITTEN_READ exactly on the lowest unwritten byte it reads (R52, R58). -/
theorem exec_unwrittenRead_iff (i : Instr) (s : State) (a : Nat) :
    exec i s = .fault (.unwrittenRead a) ↔ s.lowestUnwrittenRead i a := by
  cases i with
  | enc n => exact fault_iff_lowest_of_run (i := .enc n) (fun k => Iff.rfl) (fun f => encodeFrame_fault) a
  | hdrRd =>
    exact fault_iff_lowest_of_run (i := .hdrRd) (inRange := True) (b := 3) (n := 3)
      (fun k => (iff_of_eq (true_and _)).symm) (fun f => readHeader_fault.trans (iff_of_eq (true_and _)).symm) a
  | frd b => exact fault_iff_lowest_of_run (fun k => by simp only [readsByte]; omega) (frd_fault b s) a
  | ldU8 | ldI8 | ldU16 | ldI16 | ldU32 | ldI32 => exact load_fault_iff_lowest rfl s a
  | init | hdrWr => exact fault_iff_lowest_of_no_read id nofun
  | rxb b =>
    refine fault_iff_lowest_of_no_read id ?_
    rw [exec_rxb, receiveByte_eq]
    split_ifs <;> simp
  | stU8 | stI8 | stU16 | stI16 | stU32 | stI32 =>
    exact fault_iff_lowest_of_no_read id (by rw [exec_store rfl, store_eq]; simp)

/-- Every byte a command reads lies in the buffer (R50, R52). -/
theorem readsByte_lt {i : Instr} {k : Nat} (h : readsByte i k) : k < 133 := by
  cases i <;> simp only [readsByte] at h <;> omega

/-- Under R25 the address RXB stores at exists, so a command can stop only with UNWRITTEN_READ. -/
theorem exec_fault_unwrittenRead {i : Instr} {s : State} {f : Fault} (hs : s.registersLegal) (h : exec i s = .fault f) :
    ∃ a, f = .unwrittenRead a := by
  have ofRun {b n : Nat} (stopped : Memory.readRun s.fr b n = .error f) : ∃ a, f = .unwrittenRead a := by
    obtain ⟨k, -, hf, -⟩ := Memory.readRun_eq_error.1 stopped
    exact ⟨_, hf⟩
  rcases exec_fault.1 h with ⟨n, -, -, stopped⟩ | ⟨-, stopped⟩ | ⟨n, signed, o, -, -, stopped⟩ | ⟨a, -, -, -, hf⟩ |
    ⟨b, -, data, outside, -⟩
  · exact ofRun stopped
  · exact ofRun stopped
  · exact ofRun stopped
  · exact ⟨_, hf⟩
  · obtain ⟨hlen, inData, -, -⟩ := hs
    obtain ⟨-, hidx⟩ := inData data
    omega

/-! ### Answers of a step -/

/-- A step completes by waiting, by refusing an illegal word, or by a command on the state without its word. -/
theorem step_next {s t : State} (h : step s = .next t) :
    t = s ∨ ∃ c rest, s.pending = c :: rest ∧
      ((decode c = none ∧ t = State.answer { s with pending := rest } .illegalCmd 0#32) ∨
       ∃ i, decode c = some i ∧ exec i { s with pending := rest } = .next t) := by
  cases hp : s.pending with
  | nil => rw [step_idle hp] at h; cases h; exact .inl rfl
  | cons c rest =>
    rw [step_eq hp] at h
    refine .inr ⟨c, rest, rfl, ?_⟩
    cases hd : decode c with
    | none => rw [hd] at h; cases h; exact .inl ⟨rfl, rfl⟩
    | some i => rw [hd] at h; exact .inr ⟨i, rfl, h⟩

/-- A step stops only where the command of its word does. -/
theorem step_fault {s : State} {f : Fault} (h : step s = .fault f) :
    ∃ c rest i, s.pending = c :: rest ∧ decode c = some i ∧ exec i { s with pending := rest } = .fault f := by
  cases hp : s.pending with
  | nil => rw [step_idle hp] at h; cases h
  | cons c rest =>
    rw [step_eq hp] at h
    cases hd : decode c with
    | none => rw [hd] at h; cases h
    | some i => rw [hd] at h; exact ⟨c, rest, i, rfl, hd, h⟩

/-- A step never ends in a refusal (R211). -/
theorem step_ne_refused (s : State) (r : Refusal) : step s ≠ .refused r := by
  cases hp : s.pending with
  | nil => rw [step_idle hp]; nofun
  | cons c rest =>
    rw [step_eq hp]
    cases decode c with
    | none => nofun
    | some i => exact exec_ne_refused i _ r

/-! ### What each command writes -/

/-- A load writes no byte (R52). -/
theorem not_writesByte_load {i : Instr} {n : Nat} {signed : Bool} {o : Byte}
    (ops : loadOperands i = some (n, signed, o)) (s : State) (k : Nat) : ¬ s.writesByte i k := by
  cases i with
  | ldU8 | ldI8 | ldU16 | ldI16 | ldU32 | ldI32 => exact id
  | _ => cases ops

/-- Framing keeps every byte but the sync bytes, the length byte and the trailer (R150). -/
theorem framed_byte_other {poly : Half} {n : Byte} {payload : List Byte} {s : State} {k : Nat} (afterLength : 3 ≤ k)
    (notLow : k ≠ 3 + n.toNat) (notHigh : k ≠ 4 + n.toNat) : (framed poly n payload s).byte k = s.byte k := by
  rw [framed_byte, if_neg (by omega), if_neg (by omega), if_neg (by omega), if_neg notLow, if_neg notHigh]

/-- Outside its row's writes column a command leaves every byte as it was (R52). -/
theorem Effect.byte_eq {s t : State} {i : Instr} {k : Nat} (h : Effect s i t) (hk : ¬ s.writesByte i k) :
    t.byte k = s.byte k := by
  cases h with
  | rxb b =>
    rw [State.byte, received_fr]
    split_ifs with data
    · exact Memory.read_write_other _ _ fun at_idx => hk ⟨data, at_idx⟩
    · rfl
  | encFramed n short payload =>
    simp only [State.writesByte, short, true_and] at hk
    exact framed_byte_other (by omega) (by omega) (by omega)
  | hdrWritten =>
    exact sameOutside_writeBytes s _ _ k (by simp only [State.writesByte, leBytes_length] at hk ⊢; omega)
  | stored i n o v ops inside =>
    rw [writesByte_store ops] at hk
    exact sameOutside_writeBytes s _ _ k (by simp only [payloadAddr, leBytes_length, Config.pfx]; omega)
  | _ => rfl

/-- Inside its row's writes column a completed command leaves every byte written (R52, R58). -/
theorem Effect.byte_ne_none {s t : State} {i : Instr} {k : Nat} (h : Effect s i t) (hk : s.writesByte i k) :
    t.byte k ≠ none := by
  cases h with
  | rxb b =>
    obtain ⟨data, rfl⟩ := hk
    simp [State.byte, received_fr, data]
  | encFramed n short payload =>
    simp only [State.writesByte, short, true_and] at hk
    rw [framed_byte]
    split_ifs
    case neg => omega
    all_goals exact Option.some_ne_none _
  | hdrWritten =>
    obtain ⟨low, high⟩ := hk
    exact (holds_writeBytes s _ _).byte_ne_none low (by simpa using high)
  | stored i n o v ops inside =>
    obtain ⟨-, low, high⟩ := (writesByte_store ops s k).1 hk
    exact (holds_writeBytes s _ _).byte_ne_none low (by simpa [payloadAddr] using high)
  | storeRefused i n o v ops out =>
    obtain ⟨inside, -⟩ := (writesByte_store ops s k).1 hk
    omega
  | loadRefused i n signed o ops | loaded i n signed o ops => exact absurd hk (not_writesByte_load ops s k)
  | encRefused n long =>
    obtain ⟨short, -⟩ := hk
    omega
  | init | hdrRead | hdrRejected | frdRefused | frdRead => exact hk.elim

/-- A written byte stays written (R58): a command leaves it or writes it again. -/
theorem Effect.byte_stays_written {s t : State} {i : Instr} {k : Nat} (h : Effect s i t) (hk : s.byte k ≠ none) :
    t.byte k ≠ none := by
  by_cases writes : s.writesByte i k
  · exact h.byte_ne_none writes
  · rwa [h.byte_eq writes]

/-! ### Reading out a frame -/

theorem wireFrame_length {n : Byte} {p : List Byte} (len : p.length = n.toNat) (x₀ x₁ : Byte) :
    (wireFrame n p x₀ x₁).length = n.toNat + 5 := by
  simp [wireFrame, len]

/-- Framing leaves the whole frame in the buffer, in wire order (R80, R150). -/
theorem framed_holds (poly : Half) {n : Byte} {p : List Byte} {s : State} (len : p.length = n.toNat) (h : s.holds 3 p) :
    (framed poly n p s).holds 0
      (wireFrame n p ((crc16 poly (n :: p)).extractLsb' 0 8) ((crc16 poly (n :: p)).extractLsb' 8 8)) := by
  have payloadKept : (framed poly n p s).holds 3 p := fun k hk => by
    rw [framed_byte_other (by omega) (by omega) (by omega), h k hk]
  rw [wireFrame, holds_append, holds_append]
  refine ⟨⟨?_, payloadKept⟩, ?_⟩
  · simp [holds_cons, framed_byte]
  · have trailerAt : 0 + ([0x5A#8, 0x7E#8, n] ++ p).length = 3 + n.toNat := by
      simp only [List.length_append, List.length_cons, List.length_nil, len]
      omega
    rw [trailerAt]
    refine holds_cons.2 ⟨?_, holds_cons.2 ⟨?_, holds_nil _ _⟩⟩
    · rw [framed_byte, if_neg (by omega), if_neg (by omega), if_neg (by omega), if_pos rfl]
    · rw [framed_byte, if_neg (by omega), if_neg (by omega), if_neg (by omega), if_neg (by omega), if_pos (by omega)]

/-- ENC frames the payload the buffer holds (R150). -/
theorem exec_enc_of_holds {n : Byte} {p : List Byte} {s : State} (short : n.toNat < 128) (len : p.length = n.toNat)
    (h : s.holds 3 p) : exec (.enc n) s = .next (framed Config.crcPoly n p s) :=
  (Effect.encFramed n short p (len ▸ readRun_eq_holds.2 h)).exec_eq

/-- The record FRD returns for a byte (R158). -/
def byteResponse (b : Byte) : Response := ⟨.ok, b.setWidth 32, Header.zero⟩

/-- FRD 0 and up return the bytes held from `FR[0]`, in order, and write nothing. -/
theorem runCommands_frdUpTo {s : State} {bs : List Byte} {k : Nat} (len : bs.length = k) (inside : k ≤ 133)
    (h : s.holds 0 bs) : runCommands (frdUpTo k) s = .next { s with responses := s.responses ++ bs.map byteResponse } := by
  subst len
  induction bs using List.reverseRecOn with
  | nil => simp [frdUpTo]
  | append_singleton bs b ih =>
    rw [List.length_append, List.length_singleton] at inside ⊢
    obtain ⟨before, last⟩ := holds_append.1 h
    rw [holds_cons, Nat.zero_add] at last
    have addr : (BitVec.ofNat 8 bs.length).toNat = bs.length := Nat.mod_eq_of_lt (by omega)
    rw [frdUpTo, List.range_succ, List.map_append, ← frdUpTo, runCommands_append _ _ (ih before (by omega))]
    have read := Effect.frdRead (s := { s with responses := s.responses ++ bs.map byteResponse })
      (BitVec.ofNat 8 bs.length) b (by omega) (by rw [addr]; exact last.1)
    rw [List.map_singleton, runCommands_cons _ read.exec_eq, runCommands_nil]
    simp [State.answer, State.respond, byteResponse]

theorem State.lastStatus_answer (s : State) (st : Status) (v : Word) : (s.answer st v).lastStatus = some st := by
  simp [State.lastStatus]

/-- Where ENC completes, TXF goes on to the reads exactly if the status is OK (R79). -/
theorem txf_eq {n : Byte} {s t : State} (h : exec (.enc n) s = .next t) :
    txf n s = if t.lastStatus = some .ok then runCommands (frdUpTo (n.toNat + 5)) t else .next t := by
  rw [txf, h]

/-! ### Loads and the bytes behind them -/

theorem State.answer_inj {s : State} {st st' : Status} {v v' : Word} (h : s.answer st v = s.answer st' v') :
    st = st' ∧ v = v' := by
  have records := congrArg State.responses h
  simpa using records

/-- A load of bytes the buffer holds returns their little-endian value, extended (R55, R191). -/
theorem load_of_holds {o : Byte} {s : State} {bs : List Byte} (signed : Bool) (inside : o.toNat + bs.length ≤ 128)
    (h : s.holds (3 + o.toNat) bs) :
    load bs.length signed o s = .next (s.answer .ok (extendTo32 signed (leValue (8 * bs.length) bs))) :=
  load_next.2 (.inr ⟨inside, bs, readRun_eq_holds.2 h, rfl⟩)

/-- LD.U8 of a written byte (R192). -/
theorem ldU8_of_byte {o b : Byte} {s : State} (inside : o.toNat + 1 ≤ 128) (h : s.byte (3 + o.toNat) = some b) :
    exec (.ldU8 o) s = .next (s.answer .ok (b.zeroExtend 32)) := by
  have loaded := load_of_holds (bs := [b]) false inside (holds_cons.2 ⟨h, holds_nil _ _⟩)
  rw [← leValue_one b]
  exact loaded

/-- LD.U16 of two written bytes (R194). -/
theorem ldU16_of_holds {o b₀ b₁ : Byte} {s : State} (inside : o.toNat + 2 ≤ 128) (h : s.holds (3 + o.toNat) [b₀, b₁]) :
    exec (.ldU16 o) s = .next (s.answer .ok ((b₁ ++ b₀).zeroExtend 32)) := by
  have loaded := load_of_holds (bs := [b₀, b₁]) false inside h
  rw [← leValue_two b₀ b₁]
  exact loaded

/-- A load that answers OK is in range, and the buffer holds the bytes of its value. -/
theorem holds_of_load {n : Nat} {signed : Bool} {o : Byte} {s : State} {v : Word}
    (h : load n signed o s = .next (s.answer .ok v)) :
    o.toNat + n ≤ 128 ∧ ∃ bs, bs.length = n ∧ s.holds (3 + o.toNat) bs ∧ v = extendTo32 signed (leValue (8 * n) bs) := by
  rcases load_next.1 h with ⟨-, refused⟩ | ⟨inside, bs, read, answer⟩
  · cases (State.answer_inj refused).1
  · obtain rfl := (Memory.readRun_eq_ok.1 read).1
    exact ⟨inside, bs, rfl, readRun_eq_holds.1 read, (State.answer_inj answer).2⟩

/-- Byte `k` of a little-endian value is byte `k` of the list (R53, R55). -/
theorem leValue_extractLsb' {w : Nat} {bs : List Byte} {k : Nat} (h : k < bs.length) (fits : 8 * k + 8 ≤ w) :
    (leValue w bs).extractLsb' (8 * k) 8 = bs[k] := by
  induction bs generalizing k with
  | nil => exact absurd h (Nat.not_lt_zero k)
  | cons b bs ih =>
    cases k with
    | zero =>
      ext i hi
      simp [leValue, hi, show i < w by omega]
    | succ k =>
      rw [List.getElem_cons_succ, ← ih (Nat.lt_of_succ_lt_succ h) (by omega)]
      ext i hi
      have above : b.getLsbD (8 * (k + 1) + i) = false := BitVec.getLsbD_of_ge _ _ (by omega)
      have inside : 8 * (k + 1) + i < w := by omega
      have shifted : 8 * (k + 1) + i - 8 = 8 * k + i := by omega
      have notLow : ¬ 8 * (k + 1) + i < 8 := by omega
      have inside' : 8 * k + i < w := by omega
      simp [leValue, above, inside, inside', shifted, notLow, BitVec.getLsbD_eq_getElem]

/-- The low half of a four-byte value is the value of its first two bytes (R53). -/
theorem leValue_low_half (b₀ b₁ b₂ b₃ : Byte) : (leValue 32 [b₀, b₁, b₂, b₃]).extractLsb' 0 16 = b₁ ++ b₀ := by
  rw [leValue_four]
  ext i hi
  simp only [BitVec.getElem_extractLsb']
  grind

end Sys2Proof.Machine

section
open Sys2Proof Sys2Proof.Machine

/-- Settles O16: under R25 every fault is an UNWRITTEN_READ, which names a byte that the command reads. -/
theorem onlyUnwrittenReadsStop : Obligations.OnlyUnwrittenReadsStop := by
  refine ⟨step_ne_refused, fun s f legal stop => ?_⟩
  obtain ⟨registers, -, -⟩ := legal
  obtain ⟨c, rest, i, hp, hd, fault⟩ := step_fault stop
  obtain ⟨a, rfl⟩ := exec_fault_unwrittenRead (s := { s with pending := rest }) registers fault
  obtain ⟨reads, unwritten, -⟩ := (exec_unwrittenRead_iff i _ a).1 fault
  exact ⟨c, rest, i, a, hp, hd, rfl, reads, readsByte_lt reads, unwritten⟩

/-- Settles O18, over the cases in which a command completes. -/
theorem commandsWriteExactlyTheirBytes : Obligations.CommandsWriteExactlyTheirBytes :=
  fun _ _ _ h _ => ⟨(effect_of_exec h).byte_eq, (effect_of_exec h).byte_ne_none⟩

/-- Settles O19: each command reads at most one run of bytes, and a run of reads stops on its lowest unwritten byte. -/
theorem unwrittenReadNamesLowestByte : Obligations.UnwrittenReadNamesLowestByte :=
  exec_unwrittenRead_iff

/-- Settles O20: a command leaves the byte or writes it again, and the other steps change only the ports. -/
theorem writtenBytesStayWritten : Obligations.WrittenBytesStayWritten := by
  intro s t a h written
  rcases step_next h with rfl | ⟨c, rest, -, ⟨-, rfl⟩ | ⟨i, -, done⟩⟩
  · exact written
  · exact written
  · exact (effect_of_exec done).byte_stays_written written

/-- Settles O43: ENC leaves the frame in the buffer, and FRD 0 to FRD n+4 read it back in order. -/
theorem txfSendsFrame : Obligations.TxfSendsFrame := by
  refine fun s n => ⟨fun long => ?_, fun p short len held => ?_⟩
  · have refused := (Effect.encRefused (s := s) n long).exec_eq
    rw [txf_eq refused, State.lastStatus_answer, if_neg (by decide), refused]
  · have read := runCommands_frdUpTo (wireFrame_length len _ _) (by omega) (framed_holds Config.crcPoly len held)
    have okStatus : (framed Config.crcPoly n p s).lastStatus = some .ok := State.lastStatus_answer _ _ _
    exact ⟨_, by rw [txf_eq (exec_enc_of_holds short len held), if_pos okStatus, read], rfl⟩

/-- Settles O55: the bytes behind LD.U32's value are held, so the narrower loads return their own little-endian values. -/
theorem narrowLoadsAreSlices : Obligations.NarrowLoadsAreSlices := by
  intro s o v h
  obtain ⟨inside, bs, len, held, value⟩ := holds_of_load h
  obtain ⟨b₀, b₁, b₂, b₃, rfl⟩ := List.length_eq_four.1 len
  have value : v = leValue 32 [b₀, b₁, b₂, b₃] := value.trans (extendTo32_word false _)
  subst value
  refine ⟨?_, fun k hk => ?_⟩
  · have low : s.holds (3 + o.toNat) [b₀, b₁] := (holds_append.1 held).1
    rw [leValue_low_half]
    exact ldU16_of_holds (by omega) low
  · have addr : (o + BitVec.ofNat 8 k).toNat = o.toNat + k := by bv_omega
    have byte := held k hk
    rw [Nat.add_assoc, ← addr] at byte
    rw [leValue_extractLsb' hk (by omega)]
    exact ldU8_of_byte (by omega) byte

/-- Settles O41: `FR[132]` is in range and unwritten in a legal state. -/
theorem frdOfUnusedByteFaults : Obligations.FrdOfUnusedByteFaults := by
  rintro s ⟨-, -, unwritten⟩
  rw [exec_frd, execFrd_eq]
  simp [unwritten]

end

namespace Sys2Proof

/-! ### The decoder against the field rules

The opcode table says row by row which words are commands, and `CommandFields.wellFormed` says it field by field (R73). Both
come down to one thing: the fields are those the encoder gives some command. -/

/-- A row that matches gives a command with all the fields of the word: the row fixes every bit that its command does not carry
(R73, R75). -/
theorem encodeFields_build {r : Row} (hr : r ∈ opcodeTable) {f : CommandFields} (h : rowMatches r (wordOf f) = true) :
    encodeFields (r.build f.a f.d) = f := by
  obtain ⟨op, fn, a, d⟩ := f
  rw [rowMatches_iff] at h
  fin_cases hr
  pick_goal 5 -- HDR.WR, the one row that fixes part of `D`
  · obtain ⟨rfl, rfl, rfl, padZero⟩ : op = 4#4 ∧ fn = 0#4 ∧ a = 0#8 ∧ d &&& 0xFF000000#32 = 0#32 := by
      simpa [fieldsOf] using h
    simp [encodeFields, setWidth_header_low ((and_high8 d).1 padZero)]
  all_goals
    simp [fieldsOf] at h
    simp [encodeFields, h]

/-- A word that decodes is the encoding of what it decodes to (R73, R75). -/
theorem encode_of_decode {c : CommandWord} {i : Instr} (h : decode c = some i) : encode i = c := by
  obtain ⟨r, hr, hm, rfl⟩ := decode_eq_some h
  rw [← wordOf_fieldsOf c] at hm
  rw [encode, encodeFields_build hr hm, wordOf_fieldsOf]

/-- The encoder gives every command legal fields (R73). -/
theorem encodeFields_wellFormed (i : Instr) : (encodeFields i).wellFormed = true := by
  cases i with
  | hdrWr h => exact Laws.EncodedLegal.hdrWr h
  | _ => rfl

/-- The operation codes that are not reserved (R71). -/
theorem op_cases {op : BitVec 4} (h : op.toNat < 8) :
    op = 0#4 ∨ op = 1#4 ∨ op = 2#4 ∨ op = 3#4 ∨ op = 4#4 ∨ op = 5#4 ∨ op = 6#4 ∨ op = 7#4 := by
  revert op; decide

/-- The six function codes of LD and ST (R72). -/
theorem fn_cases {fn : BitVec 4} (h : fn.toNat < 6) :
    fn = 0#4 ∨ fn = 1#4 ∨ fn = 2#4 ∨ fn = 3#4 ∨ fn = 4#4 ∨ fn = 5#4 := by
  revert fn; decide

/-- What R73 asks of the four fields, in one conjunction. -/
theorem CommandFields.wellFormed_iff (op fn : BitVec 4) (a : Byte) (d : Word) :
    wellFormed ⟨op, fn, a, d⟩ = true ↔
      op.toNat < 8 ∧ (if op = 5#4 ∨ op = 6#4 then fn.toNat < 6 else fn = 0#4) ∧
      (op = 0#4 ∨ op = 3#4 ∨ op = 4#4 → a = 0#8) ∧
      (if op = 6#4 then True else if op = 4#4 then d.extractLsb' 24 8 = 0#8 else d = 0#32) := by
  simp only [CommandFields.wellFormed, CommandFields.opLegal, CommandFields.fnLegal, CommandFields.aLegal,
    CommandFields.dLegal, Bool.and_eq_true, decide_eq_true_eq, and_assoc]
  split_ifs <;> simp_all

/-- Every legal combination of fields is some command's (R71 to R73). -/
theorem exists_encodeFields {f : CommandFields} (h : f.wellFormed = true) : ∃ i, encodeFields i = f := by
  obtain ⟨op, fn, a, d⟩ := f
  obtain ⟨hop, hfn, ha, hd⟩ := (CommandFields.wellFormed_iff op fn a d).1 h
  rcases op_cases hop with rfl | rfl | rfl | rfl | rfl | rfl | rfl | rfl <;> simp at hfn ha hd
  · exact ⟨.init, by simp [encodeFields, *]⟩
  · exact ⟨.rxb a, by simp [encodeFields, *]⟩
  · exact ⟨.enc a, by simp [encodeFields, *]⟩
  · exact ⟨.hdrRd, by simp [encodeFields, *]⟩
  · exact ⟨.hdrWr (d.setWidth 24), by simp [encodeFields, setWidth_header_low, *]⟩
  · rcases fn_cases hfn with rfl | rfl | rfl | rfl | rfl | rfl
    exacts [⟨.ldU8 a, hd ▸ rfl⟩, ⟨.ldI8 a, hd ▸ rfl⟩, ⟨.ldU16 a, hd ▸ rfl⟩, ⟨.ldI16 a, hd ▸ rfl⟩, ⟨.ldU32 a, hd ▸ rfl⟩,
      ⟨.ldI32 a, hd ▸ rfl⟩]
  · rcases fn_cases hfn with rfl | rfl | rfl | rfl | rfl | rfl
    exacts [⟨.stU8 a d, rfl⟩, ⟨.stI8 a d, rfl⟩, ⟨.stU16 a d, rfl⟩, ⟨.stI16 a d, rfl⟩, ⟨.stU32 a d, rfl⟩, ⟨.stI32 a d, rfl⟩]
  · exact ⟨.frd a, by simp [encodeFields, *]⟩

/-- R76: the words that decode are exactly those whose fields keep R73. -/
theorem decode_isSome_iff (c : CommandWord) : (decode c).isSome = true ↔ (fieldsOf c).wellFormed = true := by
  rw [Option.isSome_iff_exists]
  constructor
  · rintro ⟨i, hd⟩
    rw [← encode_of_decode hd, fieldsOf_encode]
    exact encodeFields_wellFormed i
  · intro legal
    obtain ⟨i, hi⟩ := exists_encodeFields legal
    have hc : encode i = c := by rw [encode, hi, wordOf_fieldsOf]
    exact ⟨i, hc ▸ Machine.decode_encode i⟩

/-- An illegal word decodes to no command (R76). -/
theorem decode_eq_none {c : CommandWord} (h : (fieldsOf c).wellFormed = false) : decode c = none := by
  rw [← Option.not_isSome_iff_eq_none, decode_isSome_iff, h]
  exact Bool.false_ne_true

/-! ### The rows exclude each other -/

/-- Rows that match the same word agree on the bits that both fix. -/
theorem pattern_and_mask_of_matches {r q : Row} {c : CommandWord} (hr : rowMatches r c = true) (hq : rowMatches q c = true) :
    r.pattern &&& q.mask = q.pattern &&& r.mask := by
  rw [rowMatches, beq_iff_eq] at hr hq
  rw [← hr, ← hq, BitVec.and_assoc, BitVec.and_assoc, BitVec.and_comm r.mask]

/-- Every two rows of the table disagree on a bit that both fix. -/
theorem opcodeTable_pairwise_disagree :
    opcodeTable.Pairwise fun r q => r.pattern &&& q.mask ≠ q.pattern &&& r.mask := by
  decide

/-- A word that matches a row matches no later one (R75). -/
theorem not_rowMatches_of_lt {j k : Nat} {r q : Row} {c : CommandWord} (hj : opcodeTable[j]? = some r)
    (hk : opcodeTable[k]? = some q) (lt : j < k) (hr : rowMatches r c = true) : ¬ rowMatches q c = true := by
  obtain ⟨hj', rfl⟩ := List.getElem?_eq_some_iff.1 hj
  obtain ⟨hk', rfl⟩ := List.getElem?_eq_some_iff.1 hk
  exact fun hq => List.pairwise_iff_getElem.1 opcodeTable_pairwise_disagree j k hj' hk' lt (pattern_and_mask_of_matches hr hq)

end Sys2Proof

namespace Sys2Proof.Machine

/-! ### The packed header -/

/-- The bits of a packed header, field by field (R83). -/
theorem pack_getLsbD (h : Header) (i : Nat) :
    h.pack.getLsbD i =
      if i < 2 then h.version.getLsbD i else if i < 7 then h.service.getLsbD (i - 2)
      else if i < 13 then h.method.getLsbD (i - 7) else if i < 18 then h.sequence.getLsbD (i - 13)
      else if i < 20 then h.type.getLsbD (i - 18) else h.protocol.getLsbD (i - 20) := by
  simp only [Header.pack, BitVec.getLsbD_or, BitVec.getLsbD_shiftLeft, BitVec.getLsbD_setWidth]
  grind

end Sys2Proof.Machine

section
open Sys2Proof Sys2Proof.Machine

/-- Settles O1: the encoder's fields meet the condition of exactly their own row. -/
theorem decodeOfEncodedCommand : Obligations.DecodeOfEncodedCommand :=
  decode_encode

/-- Settles O2: the row that matches a word fixes every bit that its command does not carry. -/
theorem encodeOfDecodedWord : Obligations.EncodeOfDecodedWord :=
  fun _ _ => encode_of_decode

/-- Settles O3: every two rows disagree on a bit that both fix. -/
theorem opcodeRowsNeverOverlap : Obligations.OpcodeRowsNeverOverlap := by
  intro c j k r q hj hk hr hq
  rcases Nat.lt_trichotomy j k with lt | eq | gt
  · exact absurd hq (not_rowMatches_of_lt hj hk lt hr)
  · exact eq
  · exact absurd hr (not_rowMatches_of_lt hk hj gt hq)

/-- Settles O4: the words that decode are exactly those whose fields keep R73, and a step answers the others. -/
theorem illegalWordsAnswered : Obligations.IllegalWordsAnswered := by
  refine fun s c rest hp => ⟨fun illegal => ?_, fun legal => ?_⟩
  · rw [step_eq hp, decode_eq_none illegal]
    rfl
  · exact Option.isSome_iff_exists.1 ((decode_isSome_iff c).2 legal)

/-- Settles O6, bit by bit: each bit of the word is a bit of the one field that stands there, or of the fixed bits above `D[23:0]`. -/
theorem headerFieldsTileCommandWord : Obligations.HeaderFieldsTileCommandWord := by
  intro h
  apply BitVec.eq_of_getLsbD_eq
  intro i hi
  simp only [hdrWrFields, encode, encodeFields, wordOf_getLsbD, BitVec.getLsbD_setWidth, pack_getLsbD,
    BitVec.getLsbD_append]
  grind

/-- Settles O5: seven of the words are the encodings of their commands, and 6 is no function code of LD. -/
theorem handEncodedWordsDecode : Obligations.HandEncodedWordsDecode :=
  ⟨decode_encode .init, decode_encode (.rxb 0x5A#8), decode_encode (.enc 200#8), decode_encode (.hdrWr 0x000005#24),
    decode_encode (.ldI16 5#8), decode_encode (.stU32 8#8 0xDEADBEEF#32), decode_encode (.frd 133#8),
    decode_eq_none (by decide)⟩

/-- Settles O7, status by status. -/
theorem statusCodesOfTable : Obligations.StatusCodesOfTable := by
  refine ⟨rfl, rfl, rfl, rfl, rfl, rfl, rfl, rfl, fun st => ?_⟩
  cases st <;> decide

end

namespace Sys2Proof.Machine

/-! ### The CRC register as a linear map

One shift is linear over GF(2), it loses nothing where bit 15 of the generator is 1, and zeros in the low bits shift out without the
generator. What R103 to R109 say of the CRC comes from these three facts. -/

/-- One shift bit by bit: each bit moves down, and the generator is added where bit 0 was 1 (R101). -/
theorem crcShift_getLsbD (poly c : Half) (i : Nat) :
    (crcShift poly c).getLsbD i = (c.getLsbD (1 + i) ^^ (c.getLsbD 0 && poly.getLsbD i)) := by
  rw [crcShift]
  cases h : c.getLsbD 0 <;> simp

theorem crcShift_xor (poly c d : Half) : crcShift poly (c ^^^ d) = crcShift poly c ^^^ crcShift poly d := by
  refine BitVec.eq_of_getLsbD_eq fun i _ => ?_
  simp only [crcShift_getLsbD, BitVec.getLsbD_xor]
  grind

/-- Shifts are linear over GF(2) (R108). -/
theorem crcShifts_xor (poly c d : Half) (k : Nat) : crcShifts poly k (c ^^^ d) = crcShifts poly k c ^^^ crcShifts poly k d := by
  induction k generalizing c d with
  | zero => rfl
  | succ k ih => simp only [crcShifts, crcShift_xor, ih]

theorem crcShifts_add (poly c : Half) (j k : Nat) : crcShifts poly (j + k) c = crcShifts poly k (crcShifts poly j c) := by
  induction j generalizing c with
  | zero => rw [Nat.zero_add, crcShifts]
  | succ j ih => rw [Nat.succ_add, crcShifts, ih, crcShifts]

/-- Zeros in the low bits shift out without the generator (R101). -/
theorem crcShifts_eq_ushiftRight (poly : Half) {c : Half} {k : Nat} (low : ∀ i < k, c.getLsbD i = false) :
    crcShifts poly k c = c >>> k := by
  induction k generalizing c with
  | zero => exact c.ushiftRight_zero.symm
  | succ k ih =>
    have shift : crcShift poly c = c >>> 1 := if_neg (by rw [low 0 k.succ_pos]; decide)
    rw [crcShifts, shift, ih fun i hi => ?_, ← BitVec.shiftRight_add, Nat.add_comm]
    rw [BitVec.getLsbD_ushiftRight]
    exact low _ (by omega)

@[simp] theorem crcShifts_zero (poly : Half) (k : Nat) : crcShifts poly k 0#16 = 0#16 := by
  rw [crcShifts_eq_ushiftRight poly fun _ _ => BitVec.getLsbD_zero, BitVec.zero_ushiftRight]

/-- With bit 15 of the generator 1, only the clear register shifts to the clear register: bit 15 of the result is the bit that was
shifted out (R107). -/
theorem crcShift_eq_zero {poly c : Half} (bit15 : poly.getLsbD 15 = true) (h : crcShift poly c = 0#16) : c = 0#16 := by
  have bits (i : Nat) : (c.getLsbD (1 + i) ^^ (c.getLsbD 0 && poly.getLsbD i)) = false := by
    rw [← crcShift_getLsbD, h, BitVec.getLsbD_zero]
  have bit0 : c.getLsbD 0 = false := by
    have top := bits 15
    rwa [bit15, BitVec.getLsbD_of_ge c _ (by decide), Bool.false_xor, Bool.and_true] at top
  refine BitVec.eq_of_getLsbD_eq fun i _ => ?_
  cases i with
  | zero => exact bit0
  | succ i =>
    have next := bits i
    rwa [bit0, Bool.false_and, Bool.xor_false, Nat.add_comm, ← BitVec.getLsbD_zero (w := 16)] at next

theorem crcShifts_eq_zero_iff {poly c : Half} (bit15 : poly.getLsbD 15 = true) (k : Nat) :
    crcShifts poly k c = 0#16 ↔ c = 0#16 := by
  refine ⟨fun h => ?_, fun h => h ▸ crcShifts_zero poly k⟩
  induction k generalizing c with
  | zero => exact h
  | succ k ih => exact crcShift_eq_zero bit15 (ih h)

/-! ### The update by a byte -/

/-- A byte added after eight shifts is that byte added above the low byte before them. -/
theorem crcShifts_xor_byte (poly c : Half) (b : Byte) :
    crcShifts poly 8 c ^^^ b.setWidth 16 = crcShifts poly 8 (c ^^^ b.setWidth 16 <<< 8) := by
  have byte : crcShifts poly 8 (b.setWidth 16 <<< 8) = b.setWidth 16 := by
    rw [crcShifts_eq_ushiftRight poly fun i hi => by simp [hi]]
    ext i hi
    grind
  rw [crcShifts_xor, byte]

theorem bytes_append_eq_xor (x₀ x₁ : Byte) : (x₁ ++ x₀ : Half) = x₀.setWidth 16 ^^^ x₁.setWidth 16 <<< 8 := by
  ext i hi
  grind

/-- In eight shifts the high byte moves down unchanged, and the low byte alone meets the generator (R101). -/
theorem crcShifts_eight_append (poly : Half) (x₀ x₁ : Byte) :
    crcShifts poly 8 (x₁ ++ x₀) = x₁.setWidth 16 ^^^ crcShifts poly 8 (x₀.setWidth 16) := by
  rw [bytes_append_eq_xor, ← crcShifts_xor_byte, BitVec.xor_comm]

/-- Two updates are sixteen shifts of the register with both bytes added, the first to its low half (R101, R103). -/
theorem crc16Upd_crc16Upd (poly c : Half) (x₀ x₁ : Byte) :
    crc16Upd poly (crc16Upd poly c x₀) x₁ = crcShifts poly 16 (c ^^^ (x₁ ++ x₀)) := by
  rw [crc16Upd, crc16Upd, crcShifts_xor_byte, bytes_append_eq_xor, ← BitVec.xor_assoc, crcShifts_add poly _ 8 8]

/-- A register is its two bytes (R103). -/
theorem half_eq_append_iff {c : Half} {x₀ x₁ : Byte} :
    c = x₁ ++ x₀ ↔ x₀ = c.extractLsb' 0 8 ∧ x₁ = c.extractLsb' 8 8 := by
  constructor
  · rintro rfl
    exact ⟨BitVec.extractLsb'_append_eq_right.symm, BitVec.extractLsb'_append_eq_left.symm⟩
  · rintro ⟨rfl, rfl⟩
    ext i hi
    grind

/-- With bit 15 of the generator 1, the two bytes that clear the register are its own (R107). -/
theorem crc16Upd_crc16Upd_eq_zero_iff {poly : Half} (bit15 : poly.getLsbD 15 = true) (c : Half) (x₀ x₁ : Byte) :
    crc16Upd poly (crc16Upd poly c x₀) x₁ = 0#16 ↔ x₀ = c.extractLsb' 0 8 ∧ x₁ = c.extractLsb' 8 8 := by
  rw [crc16Upd_crc16Upd, crcShifts_eq_zero_iff bit15, BitVec.xor_eq_zero_iff, half_eq_append_iff]

theorem crc16_append_pair (poly : Half) (bs : List Byte) (x₀ x₁ : Byte) :
    crc16 poly (bs ++ [x₀, x₁]) = crc16Upd poly (crc16Upd poly (crc16 poly bs) x₀) x₁ :=
  List.foldl_append

end Sys2Proof.Machine

section
open Sys2Proof Sys2Proof.Machine

/-- Settles O22: the two updates are sixteen shifts of the CRC with its own two bytes added, which is 0. -/
theorem trailerClearsCrc : Obligations.TrailerClearsCrc := by
  intro poly bs
  rw [crcTrailer, crc16_append_pair, crc16Upd_crc16Upd, ← half_eq_append_iff.2 ⟨rfl, rfl⟩, BitVec.xor_self, crcShifts_zero]

/-- Settles O23: two updates are sixteen shifts, and these clear nothing but the clear register. -/
theorem passingTrailerUnique : Obligations.PassingTrailerUnique :=
  fun _ c x₀ x₁ bit15 => crc16Upd_crc16Upd_eq_zero_iff bit15 c x₀ x₁

/-- Settles O24, from the linearity of one shift. -/
theorem crcUpdateLinear : Obligations.CrcUpdateLinear := by
  intro poly c₁ c₂ b₁ b₂
  have bytes : c₁ ^^^ c₂ ^^^ (b₁ ^^^ b₂).setWidth 16 = (c₁ ^^^ b₁.setWidth 16) ^^^ (c₂ ^^^ b₂.setWidth 16) := by
    rw [BitVec.setWidth_xor]
    ac_rfl
  rw [crc16Upd, bytes, crcShifts_xor, crc16Upd, crc16Upd]

/-- Settles O25: of the register with the byte added, only the low byte meets the generator. -/
theorem crcTableFormAgrees : Obligations.CrcTableFormAgrees := by
  intro poly c b
  have high : ((c ^^^ b.setWidth 16).extractLsb' 8 8).setWidth 16 = c >>> 8 := by
    ext i hi
    grind
  have low : (c ^^^ b.setWidth 16).setWidth 8 = (c ^^^ b.setWidth 16).extractLsb' 0 8 :=
    BitVec.setWidth_eq_extractLsb' (by decide)
  rw [crc16UpdByTable, crcTable, crc16Upd, BitVec.zero_xor, ← high, low, ← crcShifts_eight_append,
    ← half_eq_append_iff.2 ⟨rfl, rfl⟩, crc16Upd]

/-- Settles O26: no shift of 0 meets the generator, and of the byte 0x80 only the eighth does. -/
theorem crcCornerValues : Obligations.CrcCornerValues := by
  refine ⟨fun poly k => ?_, fun poly => ?_⟩
  · induction k with
    | zero => rfl
    | succ k ih =>
      have zeroByte : crc16Upd poly Config.crcInit 0#8 = Config.crcInit := crcShifts_zero poly 8
      rw [crc16, List.replicate_succ, List.foldl_cons, zeroByte, ← crc16, ih]
  · have seven : crcShifts poly 7 0x80#16 = 1#16 := crcShifts_eq_ushiftRight poly (by decide)
    have eighth : crcShifts poly 1 1#16 = poly := BitVec.zero_xor
    rw [crc16Upd, show 0#16 ^^^ (0x80#8).setWidth 16 = 0x80#16 from rfl, crcShifts_add poly _ 7 1, seven, eighth]

end

namespace Sys2Proof.Machine

/-! ### Receiving a frame

What the decoder's transitions of R123 to R128 come to over the bytes of a frame, each part an equation for the whole next state. -/

theorem rxs_append (bs cs : List Byte) : rxs (bs ++ cs) = rxs bs ++ rxs cs := List.map_append

/-- RXB outside DATA always completes (R122). -/
theorem exec_rxb_of_not_data {s : State} (b : Byte) (notData : s.state ≠ .data) :
    exec (.rxb b) s = .next (received Config.crcPoly b s) :=
  (Effect.rxb b fun data => absurd data notData).exec_eq

/-- The state after the sync bytes and an admitted length byte `n` (R123 to R125). -/
def State.lengthReceived (n : Byte) (s : State) : State :=
  { s with
    state := if 0 < n.toNat then .data else .crc1
    len := n
    idx := 0#8
    crc := crc16 Config.crcPoly [n]
    responses := s.responses ++ [incompleteResponse] ++ [incompleteResponse] ++ [incompleteResponse] }

/-- From SYNC1 the sync bytes and an admitted length byte start a frame (R123 to R125). -/
theorem runCommands_rxs_frameStart {s : State} {n : Byte} (sync1 : s.state = .sync1) (inside : n.toNat ≤ 128) :
    runCommands (rxs [0x5A#8, 0x7E#8, n]) s = .next (s.lengthReceived n) := by
  obtain ⟨state, len, idx, crc, fr, pending, responses⟩ := s
  subst sync1
  have inLength : runCommands (rxs [0x5A#8, 0x7E#8, n]) ⟨.sync1, len, idx, crc, fr, pending, responses⟩ =
      runCommands [.rxb n]
        ⟨.length, len, idx, crc, fr, pending, responses ++ [incompleteResponse] ++ [incompleteResponse]⟩ := rfl
  rw [inLength, runCommands_cons _ (exec_rxb_of_not_data n (by simp)), runCommands_nil]
  exact congrArg Host.Outcome.next (if_neg (Nat.not_lt_of_le inside))

/-- The state after RXB in DATA (R126). -/
theorem received_of_data (poly : Half) (b : Byte) {s : State} (data : s.state = .data) :
    received poly b s =
      { s with
        state := if s.idx + 1#8 = s.len then .crc1 else .data
        idx := s.idx + 1#8
        crc := crc16Upd poly s.crc b
        fr := Memory.write s.fr (3 + s.idx.toNat) b
        responses := s.responses ++ [incompleteResponse] } := by
  obtain ⟨state, len, idx, crc, fr, pending, responses⟩ := s
  subst data
  by_cases last : idx + 1#8 = len
  · simp only [if_pos last]
    exact congrArg (State.answer · .incomplete 0#32) (if_pos last)
  · simp only [if_neg last]
    exact congrArg (State.answer · .incomplete 0#32) (if_neg last)

/-- The decoder takes payload bytes: it is in DATA until `IDX` reaches `LEN`, and in CRC1 then (R126). -/
def State.inPayload (s : State) : Prop := s.state = if s.idx = s.len then .crc1 else .data

theorem lengthReceived_inPayload (n : Byte) (s : State) : (s.lengthReceived n).inPayload := by
  change (if 0 < n.toNat then DecoderState.data else .crc1) = if 0#8 = n then .crc1 else .data
  by_cases zero : 0#8 = n
  · rw [if_pos zero, ← zero]
    rfl
  · rw [if_neg zero, if_pos (by bv_omega)]

/-- The state after the payload bytes still to come (R126). -/
def State.payloadReceived (bs : List Byte) (s : State) : State :=
  { s with
    state := .crc1
    idx := s.len
    crc := bs.foldl (crc16Upd Config.crcPoly) s.crc
    fr := Memory.writeRun s.fr (3 + s.idx.toNat) bs
    responses := s.responses ++ List.replicate bs.length incompleteResponse }

/-- The payload bytes still to come are stored one after the other, whatever they are (R126). -/
theorem runCommands_rxs_payload {bs : List Byte} {s : State} (phase : s.inPayload)
    (count : s.idx.toNat + bs.length = s.len.toNat) (inside : s.len.toNat ≤ 128) :
    runCommands (rxs bs) s = .next (s.payloadReceived bs) := by
  induction bs generalizing s with
  | nil =>
    obtain ⟨state, len, idx, crc, fr, pending, responses⟩ := s
    obtain rfl : idx = len := BitVec.eq_of_toNat_eq count
    obtain rfl : state = .crc1 := phase.trans (if_pos rfl)
    simp [rxs, State.payloadReceived]
  | cons b bs ih =>
    rw [List.length_cons] at count
    have data : s.state = .data := phase.trans (if_neg (by bv_omega))
    have bump : (s.idx + 1#8).toNat = s.idx.toNat + 1 := by bv_omega
    have stored := Effect.rxb (s := s) b fun _ => by omega
    rw [received_of_data _ b data] at stored
    rw [rxs, List.map_cons, ← rxs, runCommands_cons _ stored.exec_eq, ih]
    · simp [State.payloadReceived, bump, Memory.writeRun, List.replicate_succ, Nat.add_assoc]
    · rfl
    · simp only [bump]
      omega
    · exact inside

/-- The state after the two trailer bytes (R127, R128). -/
def State.trailerReceived (x₀ x₁ : Byte) (s : State) : State :=
  { s with
    state := .sync1
    crc := [x₀, x₁].foldl (crc16Upd Config.crcPoly) s.crc
    responses := s.responses ++ [incompleteResponse] ++
      [crcGate ([x₀, x₁].foldl (crc16Upd Config.crcPoly) s.crc) s.len] }

/-- From CRC1 two bytes end the frame (R127, R128). -/
theorem runCommands_rxs_trailer {s : State} (crc1 : s.state = .crc1) (x₀ x₁ : Byte) :
    runCommands (rxs [x₀, x₁]) s = .next (s.trailerReceived x₀ x₁) := by
  obtain ⟨state, len, idx, crc, fr, pending, responses⟩ := s
  subst crc1
  rfl

/-- The state after all bytes of a frame (R129, R134). -/
def State.frameReceived (n : Byte) (p : List Byte) (x₀ x₁ : Byte) (s : State) : State :=
  { s with
    state := .sync1
    len := n
    idx := n
    crc := crc16 Config.crcPoly (n :: p ++ [x₀, x₁])
    fr := Memory.writeRun s.fr 3 p
    responses := s.responses ++ List.replicate (n.toNat + 4) incompleteResponse ++
      [crcGate (crc16 Config.crcPoly (n :: p ++ [x₀, x₁])) n] }

/-- The three parts of a frame, one after the other (R80). -/
theorem trailerReceived_payloadReceived_lengthReceived (s : State) {n : Byte} {p : List Byte} (len : p.length = n.toNat)
    (x₀ x₁ : Byte) :
    ((s.lengthReceived n).payloadReceived p).trailerReceived x₀ x₁ = s.frameReceived n p x₀ x₁ := by
  have records (r : Response) : [r] ++ [r] ++ [r] ++ List.replicate n.toNat r ++ [r] = List.replicate (n.toNat + 4) r := by
    change List.replicate 3 r ++ List.replicate n.toNat r ++ List.replicate 1 r = _
    rw [List.replicate_append_replicate, List.replicate_append_replicate, Nat.add_comm 3]
  simp [State.trailerReceived, State.payloadReceived, State.lengthReceived, State.frameReceived, crc16, ← records, len]

/-- From SYNC1 every byte of a frame of admitted length is taken, and the payload is stored (R134). -/
theorem runCommands_wireFrame {s : State} {n : Byte} {p : List Byte} (sync1 : s.state = .sync1) (inside : n.toNat ≤ 128)
    (len : p.length = n.toNat) (x₀ x₁ : Byte) :
    runCommands (rxs (wireFrame n p x₀ x₁)) s = .next (s.frameReceived n p x₀ x₁) := by
  have count : (s.lengthReceived n).idx.toNat + p.length = n.toNat := by rw [len]; exact Nat.zero_add _
  have payload := runCommands_rxs_payload (lengthReceived_inPayload n s) count inside
  rw [wireFrame, rxs_append, rxs_append, List.append_assoc, runCommands_append _ _ (runCommands_rxs_frameStart sync1 inside),
    runCommands_append _ _ payload, runCommands_rxs_trailer rfl, trailerReceived_payloadReceived_lengthReceived s len]

end Sys2Proof.Machine

section
open Sys2Proof Sys2Proof.Machine

/-- Settles O39: reception leaves the payload in the buffer, and the trailer that passed is the only one that does (R107), so it is
the one ENC makes. -/
theorem receivedFrameReencodes : Obligations.ReceivedFrameReencodes := by
  intro s t u n p x₀ x₁ sync1 short len residue run same
  rw [runCommands_wireFrame sync1 (by omega) len] at run
  obtain rfl := Host.Outcome.next.inj run
  have received : (s.frameReceived n p x₀ x₁).holds 3 p := holds_writeBytes s 3 p
  have held : u.holds 3 p := fun k hk => (same k (len ▸ hk)).trans (received k hk)
  obtain ⟨rfl, rfl⟩ := (crc16Upd_crc16Upd_eq_zero_iff crcPoly_bit15 _ x₀ x₁).1 (crc16_append_pair .. ▸ residue)
  exact ⟨_, exec_enc_of_holds (by omega) len held, framed_holds Config.crcPoly len held, rfl⟩

end

namespace Sys2Proof.Machine

/-! ### One RXB, state by state

The next state of R123 to R128 as a whole, one equation for each decoder state; `received_of_data` is the one for DATA. -/

theorem received_of_sync1 (poly : Half) (b : Byte) {s : State} (sync1 : s.state = .sync1) :
    received poly b s =
      { s with
        state := if b = 0x5A#8 then .sync2 else .sync1
        responses := s.responses ++ [incompleteResponse] } := by
  rw [received, sync1]
  rfl

theorem received_of_sync2 (poly : Half) (b : Byte) {s : State} (sync2 : s.state = .sync2) :
    received poly b s =
      { s with
        state := if b = 0x7E#8 then .length else .sync1
        responses := s.responses ++ [incompleteResponse] } := by
  rw [received, sync2]
  rfl

/-- An oversized length byte drops the frame (R125). -/
theorem received_of_length_oversized (poly : Half) {b : Byte} {s : State} (length : s.state = .length)
    (oversized : 128 < b.toNat) :
    received poly b s = { s with state := .sync1, responses := s.responses ++ [incompleteResponse] } := by
  rw [received, length]
  exact if_pos oversized

/-- An admitted length byte starts the frame, in CRC1 where there is no payload (R125). -/
theorem received_of_length_admitted (poly : Half) {b : Byte} {s : State} (length : s.state = .length)
    (admitted : b.toNat ≤ 128) :
    received poly b s =
      { s with
        state := if b = 0#8 then .crc1 else .data
        len := b
        idx := 0#8
        crc := crc16Upd poly 0#16 b
        responses := s.responses ++ [incompleteResponse] } := by
  have start : received poly b s =
      ((s.startFrame poly b).moveTo (if 0 < b.toNat then .data else .crc1)).answer .incomplete 0#32 := by
    rw [received, length]
    exact if_neg (Nat.not_lt_of_le admitted)
  by_cases zero : b = 0#8
  · rw [start, if_pos zero, if_neg (by simp [zero])]
    rfl
  · rw [start, if_neg zero, if_pos (by bv_omega)]
    rfl

theorem received_of_crc1 (poly : Half) (b : Byte) {s : State} (crc1 : s.state = .crc1) :
    received poly b s =
      { s with
        state := .crc2
        crc := crc16Upd poly s.crc b
        responses := s.responses ++ [incompleteResponse] } := by
  rw [received, crc1]
  rfl

theorem received_of_crc2 (poly : Half) (b : Byte) {s : State} (crc2 : s.state = .crc2) :
    received poly b s =
      { s with
        state := .sync1
        crc := crc16Upd poly s.crc b
        responses := s.responses ++ [crcGate (crc16Upd poly s.crc b) s.len] } := by
  rw [received, crc2]
  rfl

/-! ### RXB in a state that meets R25 -/

/-- In DATA the store is at an index inside the payload (R25). -/
theorem State.registersLegal.idx_lt_len {s : State} (hs : s.registersLegal) (data : s.state = .data) :
    s.idx.toNat < s.len.toNat := by
  obtain ⟨-, inData, -, -⟩ := hs
  exact (inData data).2

theorem State.registersLegal.idx_lt {s : State} (hs : s.registersLegal) (data : s.state = .data) :
    s.idx.toNat < 128 :=
  Nat.lt_of_lt_of_le (hs.idx_lt_len data) hs.1

/-- Under R25 RXB always completes (R122). -/
theorem exec_rxb_of_registersLegal {s : State} (b : Byte) (hs : s.registersLegal) :
    exec (.rxb b) s = .next (received Config.crcPoly b s) :=
  (Effect.rxb b fun data => by have := hs.idx_lt data; omega).exec_eq

/-- In DATA under R25 there are payload bytes to come (R25, R126). -/
theorem State.registersLegal.inPayload {s : State} (hs : s.registersLegal) (data : s.state = .data) : s.inPayload := by
  have notLast : s.idx ≠ s.len := fun last => Nat.ne_of_lt (hs.idx_lt_len data) (congrArg BitVec.toNat last)
  exact data.trans (if_neg notLast).symm

/-! ### A run of first sync bytes -/

theorem runCommands_rxs_singleton {b : Byte} {s t : State} (h : exec (.rxb b) s = .next t) :
    runCommands (rxs [b]) s = .next t :=
  runCommands_cons [] h

/-- The state after `k` bytes `0x5A` from SYNC1: SYNC1 and SYNC2 take turns, because a byte that fails in SYNC2 is not tried again
(R123, R124). -/
def State.syncRunReceived (k : Nat) (s : State) : State :=
  { s with
    state := if k % 2 = 1 then .sync2 else .sync1
    responses := s.responses ++ List.replicate k incompleteResponse }

theorem received_syncRunReceived (poly : Half) (k : Nat) (s : State) :
    received poly 0x5A#8 (s.syncRunReceived k) = s.syncRunReceived (k + 1) := by
  rcases Nat.mod_two_eq_zero_or_one k with even | odd
  · rw [received_of_sync1 _ _ (by simp [State.syncRunReceived, even])]
    simp [State.syncRunReceived, Nat.add_mod, even, List.replicate_succ']
  · rw [received_of_sync2 _ _ (by simp [State.syncRunReceived, odd])]
    simp [State.syncRunReceived, Nat.add_mod, odd, List.replicate_succ']

theorem syncRunReceived_ne_data (k : Nat) (s : State) : (s.syncRunReceived k).state ≠ .data := by
  change (if k % 2 = 1 then DecoderState.sync2 else .sync1) ≠ .data
  split_ifs <;> decide

theorem runCommands_rxs_syncRun {s : State} (sync1 : s.state = .sync1) (k : Nat) :
    runCommands (rxs (List.replicate k 0x5A#8)) s = .next (s.syncRunReceived k) := by
  induction k with
  | zero =>
    obtain ⟨state, len, idx, crc, fr, pending, responses⟩ := s
    subst sync1
    simp [rxs, State.syncRunReceived]
  | succ k ih =>
    have next := exec_rxb_of_not_data 0x5A#8 (syncRunReceived_ne_data k s)
    rw [received_syncRunReceived] at next
    rw [List.replicate_succ', rxs_append, runCommands_append _ _ ih, runCommands_rxs_singleton next]

/-- The second sync byte after the run: it is the one awaited exactly where the run is odd (R131). -/
theorem received_sync2_syncRunReceived (poly : Half) (k : Nat) (s : State) :
    received poly 0x7E#8 (s.syncRunReceived k) =
      { s with
        state := if k % 2 = 1 then .length else .sync1
        responses := s.responses ++ List.replicate (k + 1) incompleteResponse } := by
  rcases Nat.mod_two_eq_zero_or_one k with even | odd
  · rw [received_of_sync1 _ _ (by simp [State.syncRunReceived, even])]
    simp [State.syncRunReceived, even, List.replicate_succ']
  · rw [received_of_sync2 _ _ (by simp [State.syncRunReceived, odd])]
    simp [State.syncRunReceived, odd, List.replicate_succ']

/-! ### The zero-length frame -/

/-- With bit 15 of the generator 1, the only trailer that passes after the length byte 0 is `00 00` (R107, R133). -/
theorem crc16_zeroLength_eq_zero_iff {poly : Half} (bit15 : poly.getLsbD 15 = true) (x₀ x₁ : Byte) :
    crc16 poly [0#8, x₀, x₁] = 0#16 ↔ x₀ = 0#8 ∧ x₁ = 0#8 := by
  have lengthByte : crc16 poly [0#8] = 0#16 := crcShifts_zero poly 8
  have passes := crc16Upd_crc16Upd_eq_zero_iff bit15 (crc16 poly [0#8]) x₀ x₁
  rwa [← crc16_append_pair, lengthByte] at passes

end Sys2Proof.Machine

section
open Sys2Proof Sys2Proof.Machine

/-- Settles O30: under R25 the index is below 128, so the store is inside the buffer and the count does not wrap. -/
theorem rxbStoresPayloadByte : Obligations.RxbStoresPayloadByte := by
  intro s b data registers
  have next := exec_rxb_of_registersLegal b registers
  rw [received_of_data _ b data] at next
  exact ⟨_, next, rfl, registers.idx_lt data, registers.bumpIdx_toNat data, Memory.read_write_same _ _ _,
    fun _ other => Memory.read_write_other _ _ other⟩

/-- Settles O32: under R25 RXB completes, and only in CRC2 its record is the CRC gate's. -/
theorem rxbTakesEveryByte : Obligations.RxbTakesEveryByte := by
  intro s b registers
  refine ⟨rfl, _, rxbResponse Config.crcPoly b s, exec_rxb_of_registersLegal b registers, received_responses_eq _ b s,
    rxbResponse_hdr _ b s, fun notCrc2 => if_neg notCrc2, fun crc2 => ?_⟩
  rw [rxbResponse, if_pos crc2, crcGate]
  split_ifs
  · exact .inl ⟨rfl, rfl⟩
  · exact .inr ⟨rfl, rfl⟩

/-- Settles O33: the frame's bytes are taken one after the other, and the payload bytes are the ones stored. -/
theorem frameReceptionPromise : Obligations.FrameReceptionPromise := by
  intro s n p x₀ x₁ sync1 inside len
  have outside : s.sameOutside (s.frameReceived n p x₀ x₁) 3 n.toNat := len ▸ sameOutside_writeBytes s 3 p
  exact ⟨_, runCommands_wireFrame sync1 inside len x₀ x₁, rfl, rfl, rfl, rfl, rfl, rfl, holds_writeBytes s 3 p, outside⟩

/-- Settles O34: in DATA the bytes still to come are stored without a look at their values. -/
theorem truncatedFrameAbsorbsBytes : Obligations.TruncatedFrameAbsorbsBytes := by
  intro s bs data registers count
  have more := registers.idx_lt_len data
  have run := runCommands_rxs_payload (registers.inPayload data) (bs := bs) (by omega) registers.1
  exact ⟨_, run, rfl, rfl, rfl, rfl, holds_writeBytes s _ bs, sameOutside_writeBytes s _ bs⟩

/-- Settles O35: SYNC1 and SYNC2 take turns along the run, and only SYNC2 awaits `0x7E`. -/
theorem syncRunParityDecidesFrame : Obligations.SyncRunParityDecidesFrame := by
  intro s k sync1
  have next := exec_rxb_of_not_data 0x7E#8 (syncRunReceived_ne_data k s)
  rw [received_sync2_syncRunReceived] at next
  have run := runCommands_append _ (rxs [0x7E#8]) (runCommands_rxs_syncRun sync1 k)
  rw [← rxs_append, runCommands_rxs_singleton next] at run
  exact ⟨_, run, rfl, rfl, rfl, rfl, rfl, rfl⟩

/-- Settles O36: the frame of R134 without payload, whose length byte leaves the CRC clear. -/
theorem zeroLengthFrame : Obligations.ZeroLengthFrame := by
  intro s x₀ x₁ sync1
  have passes := crc16_zeroLength_eq_zero_iff crcPoly_bit15 x₀ x₁
  refine ⟨_, runCommands_wireFrame sync1 (by decide) rfl x₀ x₁, rfl, rfl, ?_⟩
  simp only [← passes]
  rfl

/-- Settles O27, from the definition of INIT. -/
theorem initResetsDecoder : Obligations.InitResetsDecoder :=
  ⟨rfl, fun _ => rfl⟩

/-- Settles O28, by the transitions of SYNC1 and SYNC2. -/
theorem rxbDetectsSync : Obligations.RxbDetectsSync := by
  refine fun s b => ⟨fun sync1 => ?_, fun sync2 => ?_⟩
  · rw [exec_rxb_of_not_data b (by simp [sync1]), received_of_sync1 _ b sync1]
  · rw [exec_rxb_of_not_data b (by simp [sync2]), received_of_sync2 _ b sync2]

/-- Settles O29, by the two transitions of LENGTH. -/
theorem rxbDecodesLength : Obligations.RxbDecodesLength := by
  intro s b length
  rw [exec_rxb_of_not_data b (by simp [length])]
  exact ⟨fun oversized => congrArg _ (received_of_length_oversized _ length oversized),
    fun admitted => congrArg _ (received_of_length_admitted _ length admitted)⟩

/-- Settles O31, by the transitions of CRC1 and CRC2. -/
theorem rxbChecksTrailer : Obligations.RxbChecksTrailer := by
  refine fun s b => ⟨fun crc1 => ?_, fun crc2 => ?_⟩
  · rw [exec_rxb_of_not_data b (by simp [crc1]), received_of_crc1 _ b crc1]
  · rw [exec_rxb_of_not_data b (by simp [crc2]), received_of_crc2 _ b crc2]
    rfl

end

namespace Sys2Proof.Machine

/-! ### The frame ENC leaves and its reception -/

/-- Framing writes only within the frame (R150). -/
theorem framed_sameOutside (poly : Half) (n : Byte) (p : List Byte) (s : State) :
    s.sameOutside (framed poly n p s) 0 (n.toNat + 5) := by
  intro k outside
  exact framed_byte_other (by omega) (by omega) (by omega)

/-- ENC stops on the lowest unwritten payload byte (R58, R150). -/
theorem exec_enc_of_unwritten {n : Byte} {s : State} {k : Nat} (short : n.toNat < 128) (below : k < n.toNat)
    (unwritten : s.byte (3 + k) = none) (lower : ∀ j, j < k → s.byte (3 + j) ≠ none) :
    exec (.enc n) s = .fault (.unwrittenRead (3 + k)) :=
  encodeFrame_fault.2 ⟨short, Memory.readRun_eq_error.2 ⟨k, below, rfl, unwritten, lower⟩⟩

/-- An ENC of an admitted length that completes has framed the payload the buffer held (R150). -/
theorem framed_of_exec_enc {n : Byte} {s t : State} (short : n.toNat < 128) (h : exec (.enc n) s = .next t) :
    ∃ p, p.length = n.toNat ∧ s.holds 3 p ∧ t = framed Config.crcPoly n p s := by
  rcases encodeFrame_next.1 h with ⟨long, -⟩ | ⟨-, p, read, framing⟩
  · omega
  · have len := (Memory.readRun_eq_ok.1 read).1
    exact ⟨p, len, readRun_eq_holds.1 (len ▸ read), framing⟩

/-- The payload of a frame held from `FR[0]` is held from `FR[3]` (R51, R80). -/
theorem holds_payload_of_wireFrame {s : State} {n x₀ x₁ : Byte} {p : List Byte} (h : s.holds 0 (wireFrame n p x₀ x₁)) :
    s.holds 3 p :=
  (holds_append.1 (holds_append.1 h).1).2

/-- Writing the bytes the buffer already holds changes no byte. -/
theorem writeBytes_byte_of_holds {s : State} {a : Nat} {bs : List Byte} (h : s.holds a bs) (k : Nat) :
    (s.writeBytes a bs).byte k = s.byte k := by
  by_cases outside : k < a ∨ a + bs.length ≤ k
  · exact sameOutside_writeBytes s a bs k outside
  · obtain ⟨j, rfl⟩ : ∃ j, k = a + j := Nat.exists_eq_add_of_le (by omega)
    rw [holds_writeBytes s a bs j (by omega), h j (by omega)]

/-- A frame whose payload the buffer already holds changes no byte (R154). -/
theorem frameReceived_byte_of_holds {s : State} {n x₀ x₁ : Byte} {p : List Byte} (h : s.holds 3 p) (k : Nat) :
    (s.frameReceived n p x₀ x₁).byte k = s.byte k :=
  writeBytes_byte_of_holds h k

/-- A frame with its own CRC as trailer leaves the register clear, for every generator (R105, R153). -/
theorem crc16_own_trailer (poly : Half) (bs : List Byte) :
    crc16 poly (bs ++ [(crc16 poly bs).extractLsb' 0 8, (crc16 poly bs).extractLsb' 8 8]) = 0#16 :=
  trailerClearsCrc poly bs

/-- A frame that leaves the register clear passes the gate (R106, R128). -/
theorem frameReceived_responses_of_residue {s : State} {n x₀ x₁ : Byte} {p : List Byte}
    (residue : crc16 Config.crcPoly (n :: p ++ [x₀, x₁]) = 0#16) :
    (s.frameReceived n p x₀ x₁).responses =
      s.responses ++ List.replicate (n.toNat + 4) incompleteResponse ++ [⟨.frameReady, n.setWidth 32, Header.zero⟩] := by
  rw [State.frameReceived, residue]
  rfl

/-! ### Reading one unwritten byte -/

/-- FRD of an unwritten byte (R58, R158). -/
theorem exec_frd_of_unwritten {a : Byte} {s : State} (inside : a.toNat < 133) (unwritten : s.byte a.toNat = none) :
    exec (.frd a) s = .fault (.unwrittenRead a.toNat) := by
  rw [exec_frd, execFrd_eq, if_pos inside, unwritten]

/-- LD.U8 of an unwritten byte (R58, R192). -/
theorem ldU8_of_unwritten {o : Byte} {s : State} (inside : o.toNat + 1 ≤ 128) (unwritten : s.byte (3 + o.toNat) = none) :
    exec (.ldU8 o) s = .fault (.unwrittenRead (3 + o.toNat)) :=
  load_fault.2 ⟨inside, Memory.readRun_eq_error.2
    ⟨0, Nat.one_pos, rfl, unwritten, fun j lower => absurd lower (Nat.not_lt_zero j)⟩⟩

end Sys2Proof.Machine

section
open Sys2Proof Sys2Proof.Machine

/-- Settles O37: ENC refuses, frames the payload the buffer holds, or stops on the lowest byte of it that is unwritten. -/
theorem encFramesPayload : Obligations.EncFramesPayload := by
  intro s n
  refine ⟨rfl, fun long => (Effect.encRefused n long).exec_eq, fun p short len held => ?_,
    fun _ => exec_enc_of_unwritten⟩
  exact ⟨_, exec_enc_of_holds short len held, rfl, framed_holds Config.crcPoly len held,
    framed_sameOutside Config.crcPoly n p s⟩

/-- Settles O38: the frame's own trailer clears the register, and the payload is stored over itself. -/
theorem encodedFrameIsAccepted : Obligations.EncodedFrameIsAccepted := by
  intro s t n short sync1 enc
  obtain ⟨p, len, payload, rfl⟩ := framed_of_exec_enc short enc
  have frame := framed_holds Config.crcPoly len payload
  have waiting : (framed Config.crcPoly n p s).state = .sync1 := sync1
  refine ⟨_, _, wireFrame_length len _ _, frame, runCommands_wireFrame waiting (by omega) len _ _,
    frameReceived_responses_of_residue (crc16_own_trailer Config.crcPoly (n :: p)),
    frameReceived_byte_of_holds (holds_payload_of_wireFrame frame)⟩

/-- Settles O42: both read `FR[3 + o]`, and both stop where it is unwritten. -/
theorem frdAgreesWithByteLoad : Obligations.FrdAgreesWithByteLoad := by
  intro s o inside
  have addr : (o + 3#8).toNat = 3 + o.toNat := by bv_omega
  have inBuffer : (o + 3#8).toNat < 133 := by omega
  cases h : s.byte (3 + o.toNat) with
  | none => rw [exec_frd_of_unwritten inBuffer (addr ▸ h), ldU8_of_unwritten inside h, addr]
  | some b =>
    have frd := Effect.frdRead (o + 3#8) b inBuffer (addr ▸ h)
    exact frd.exec_eq.trans (ldU8_of_byte inside h).symm

/-- Settles O40, by the three cases of FRD. -/
theorem frdReadsFrameByte : Obligations.FrdReadsFrameByte :=
  fun _ a => ⟨rfl, fun out => (Effect.frdRefused a out).exec_eq, exec_frd_of_unwritten,
    fun b inside written => (Effect.frdRead a b inside written).exec_eq⟩

end

namespace Sys2Proof.Machine

/-! ### Packing and unpacking a header -/

/-- Bit `i` of the packed header is the bit that the field standing there took from bit `i` of the word (R83, R174). -/
@[simp] theorem pack_unpack (w : BitVec 24) : (Header.unpack w).pack = w := by
  apply BitVec.eq_of_getLsbD_eq
  intro i hi
  simp only [pack_getLsbD, Header.unpack, BitVec.getLsbD_extractLsb']
  grind

/-- Each field is found again at its own bits: the fields below it end there, and those above it begin later (R83, R174). -/
@[simp] theorem unpack_pack (h : Header) : Header.unpack h.pack = h := by
  obtain ⟨version, service, method, sequence, type, protocol⟩ := h
  simp only [Header.unpack, Header.mk.injEq]
  refine ⟨?_, ?_, ?_, ?_, ?_, ?_⟩ <;>
    (ext i hi
     simp only [BitVec.getElem_extractLsb', pack_getLsbD]
     grind)

/-! ### The header in the buffer -/

/-- The bytes `PB[0..2]` of a packed header (R175). -/
def headerBytes (h : BitVec 24) : List Byte := [h.extractLsb' 0 8, h.extractLsb' 8 8, h.extractLsb' 16 8]

/-- HDR.RD's value of the bytes HDR.WR writes (R171, R177). -/
@[simp] theorem leValue_headerBytes (h : BitVec 24) : leValue 24 (headerBytes h) = h := by
  have high : h.extractLsb' 16 8 ++ h.extractLsb' 8 8 = h.extractLsb' 8 16 :=
    BitVec.extractLsb'_append_extractLsb'_eq_extractLsb' rfl
  have all : h.extractLsb' 8 16 ++ h.extractLsb' 0 8 = h.extractLsb' 0 24 :=
    BitVec.extractLsb'_append_extractLsb'_eq_extractLsb' rfl
  rw [headerBytes, leValue_three, high, all, BitVec.extractLsb'_eq_self]

theorem leBytes_eq_map {w : Nat} (n : Nat) (v : BitVec w) :
    leBytes n v = (List.range n).map fun k => v.extractLsb' (8 * k) 8 :=
  List.ext_getElem (by simp) fun k low _ => by simp [leBytes_getElem]

/-- HDR.WR's four bytes: the header's three and the zero pad byte (R175, R176). -/
theorem leBytes_header (h : BitVec 24) : leBytes 4 (h.setWidth 32) = headerBytes h ++ [0#8] := by
  have slice (start : Nat) (fits : start + 8 ≤ 32) : (h.setWidth 32).extractLsb' start 8 = h.extractLsb' start 8 :=
    BitVec.extractLsb'_setWidth_of_le fits
  have pad : h.extractLsb' 24 8 = 0#8 := (slice 24 (by decide)).symm.trans (setWidth_header_high h)
  simp [leBytes_eq_map, List.range_succ, headerBytes, slice, pad]

theorem State.holds.of_sameBytes {s u : State} {a : Nat} {bs : List Byte} (held : s.holds a bs)
    (same : s.sameBytes u a bs.length) : u.holds a bs :=
  fun k hk => (same k hk).trans (held k hk)

/-- What the slot holds after HDR.WR (R175, R176). -/
theorem hdrWr_holds {s t : State} {h : BitVec 24} (written : exec (.hdrWr h) s = .next t) :
    t.holds 3 (headerBytes h ++ [0#8]) := by
  cases written
  rw [← leBytes_header]
  exact holds_writeBytes s 3 (leBytes 4 (h.setWidth 32))

/-- HDR.RD of a header whose version is `P_VERSION` (R171, R172). -/
theorem hdrRd_of_holds_accepted {s : State} {b₀ b₁ b₂ : Byte} {w : BitVec 24} (held : s.holds 3 [b₀, b₁, b₂])
    (value : leValue 24 [b₀, b₁, b₂] = w) (version : w.extractLsb' 0 2 = Config.version) :
    exec .hdrRd s = .next (s.respond ⟨.ok, w.setWidth 32, Header.unpack w⟩) := by
  subst value
  exact (Effect.hdrRead _ (readRun_eq_holds.2 held) version).exec_eq

/-- HDR.RD of a header of another version (R171, R172). -/
theorem hdrRd_of_holds_rejected {s : State} {b₀ b₁ b₂ : Byte} {w : BitVec 24} (held : s.holds 3 [b₀, b₁, b₂])
    (value : leValue 24 [b₀, b₁, b₂] = w) (version : w.extractLsb' 0 2 ≠ Config.version) :
    exec .hdrRd s = .next (s.answer .versionError 0#32) := by
  subst value
  exact (Effect.hdrRejected _ (readRun_eq_holds.2 held) version).exec_eq

/-- HDR.RD stops on the lowest unwritten byte of `PB[0..2]` (R58, R171). -/
theorem hdrRd_of_unwritten {s : State} {k : Nat} (below : k < 3) (unwritten : s.byte (3 + k) = none)
    (lower : ∀ j, j < k → s.byte (3 + j) ≠ none) : exec .hdrRd s = .fault (.unwrittenRead (3 + k)) :=
  readHeader_fault.2 (Memory.readRun_eq_error.2 ⟨k, below, rfl, unwritten, lower⟩)

/-- The word of a command whose `D` is a 24-bit operand: `D[31:24]` is a zero byte (R70, R78). -/
theorem wordOf_header (op fn : BitVec 4) (a : Byte) (h : BitVec 24) :
    wordOf ⟨op, fn, a, h.setWidth 32⟩ = op ++ fn ++ a ++ 0#8 ++ h := by
  apply BitVec.eq_of_getLsbD_eq
  intro i hi
  simp only [wordOf_getLsbD, BitVec.getLsbD_append, BitVec.getLsbD_setWidth]
  grind

end Sys2Proof.Machine

section
open Sys2Proof Sys2Proof.Machine

/-- Settles O44: HDR.WR writes the low four bytes of `h` at the slot, the fourth of which is zero. -/
theorem hdrWrWritesSlot : Obligations.HdrWrWritesSlot := by
  intro s h
  have written := (Effect.hdrWritten (s := s) h).exec_eq
  exact ⟨wordOf_header _ _ _ h, _, written, rfl, hdrWr_holds written,
    sameOutside_writeBytes s 3 (leBytes 4 (h.setWidth 32))⟩

/-- Settles O45: HDR.RD accepts or rejects the header the buffer holds, or stops on its lowest unwritten byte. -/
theorem hdrRdUnpacksHeader : Obligations.HdrRdUnpacksHeader := by
  refine ⟨by decide, fun s => ⟨fun b₀ b₁ b₂ held => ?_, fun _ => hdrRd_of_unwritten⟩⟩
  have value := leValue_three b₀ b₁ b₂
  exact ⟨hdrRd_of_holds_accepted held value, hdrRd_of_holds_rejected held value⟩

/-- Settles O46: the six fields tile the 24 bits. -/
theorem headerPackUnpackInverse : Obligations.HeaderPackUnpackInverse :=
  ⟨unpack_pack, pack_unpack⟩

/-- Settles O47: the bytes HDR.WR left are still held, and their value is `h`. -/
theorem headerRoundTrip : Obligations.HeaderRoundTrip := by
  intro s t u h written same
  have header : t.holds 3 (headerBytes h) := (holds_append.1 (hdrWr_holds written)).1
  have held := header.of_sameBytes same
  have value := leValue_headerBytes h
  exact ⟨hdrRd_of_holds_accepted held value, hdrRd_of_holds_rejected held value⟩

end

namespace Sys2Proof.Machine

/-! ### The accessors by width -/

/-- The bytes of a value, put together again, are its low bits (R53, R55). -/
theorem leValue_leBytes {w : Nat} (n : Nat) (v : BitVec w) : leValue (8 * n) (leBytes n v) = v.setWidth (8 * n) := by
  apply BitVec.eq_of_getLsbD_eq
  intro i hi
  have inList : i / 8 < (leBytes n v).length := by rw [leBytes_length]; omega
  have sameByte : (leValue (8 * n) (leBytes n v)).extractLsb' (8 * (i / 8)) 8 = v.extractLsb' (8 * (i / 8)) 8 := by
    rw [leValue_extractLsb' inList (by omega), leBytes_getElem]
  have sameBit := congrArg (·.getLsbD (i % 8)) sameByte
  have inByte : i % 8 < 8 := Nat.mod_lt i (by decide)
  simpa [inByte, Nat.div_add_mod, hi] using sameBit

/-- The state a store in range leaves: the low `8n` bits of `v` at `PB[o]` and up, answered OK (R198 to R203). -/
def State.stored (s : State) (n : Nat) (o : Byte) (v : Word) : State :=
  (s.writeBytes (payloadAddr o) (leBytes n v)).answer .ok 0#32

theorem stored_holds (s : State) (n : Nat) (o : Byte) (v : Word) : (s.stored n o v).holds (3 + o.toNat) (leBytes n v) :=
  holds_writeBytes s (payloadAddr o) (leBytes n v)

theorem stored_sameOutside (s : State) (n : Nat) (o : Byte) (v : Word) :
    s.sameOutside (s.stored n o v) (3 + o.toNat) n := by
  have outside := sameOutside_writeBytes s (payloadAddr o) (leBytes n v)
  rwa [leBytes_length] at outside

theorem exec_store_of_inside {i : Instr} {n : Nat} {o : Byte} {v : Word} (ops : storeOperands i = some (n, o, v))
    (s : State) (inside : o.toNat + n ≤ 128) : exec i s = .next (s.stored n o v) :=
  (Effect.stored i n o v ops inside).exec_eq

section Stores
variable {storeU storeI : Instr} {n : Nat} {o : Byte} {v : Word}
  (opsU : storeOperands storeU = some (n, o, v)) (opsI : storeOperands storeI = some (n, o, v))
include opsU opsI

/-- The two stores of a width, where their run leaves the payload area (R191). -/
theorem stores_of_out (s : State) (out : 128 < o.toNat + n) :
    exec storeU s = .next (s.answer .rangeFault 0#32) ∧ exec storeI s = .next (s.answer .rangeFault 0#32) :=
  ⟨(Effect.storeRefused _ n o v opsU out).exec_eq, (Effect.storeRefused _ n o v opsI out).exec_eq⟩

/-- The two stores of a width complete in the same state, which differs from the old one in the bytes `bs` of `v` and in
the answer (R198 to R203). -/
theorem stores_of_inside {bs : List Byte} (bytes : leBytes n v = bs) (s : State) (inside : o.toNat + n ≤ 128) :
    ∃ t, exec storeU s = .next t ∧ exec storeI s = .next t ∧ s.answersStoring t ⟨.ok, 0#32, Header.zero⟩ ∧
      t.holds (3 + o.toNat) bs ∧ s.sameOutside t (3 + o.toNat) n :=
  ⟨s.stored n o v, exec_store_of_inside opsU s inside, exec_store_of_inside opsI s inside, rfl,
    bytes ▸ stored_holds s n o v, stored_sameOutside s n o v⟩

/-- What either store of a width wrote is still held wherever its bytes are unchanged (R204). -/
theorem holds_of_store {s t u : State} (inside : o.toNat + n ≤ 128)
    (completed : exec storeU s = .next t ∨ exec storeI s = .next t) (same : t.sameBytes u (3 + o.toNat) n) :
    u.holds (3 + o.toNat) (leBytes n v) := by
  have stored : s.stored n o v = t := by
    simpa [exec_store_of_inside opsU s inside, exec_store_of_inside opsI s inside] using completed
  subst stored
  exact (stored_holds s n o v).of_sameBytes (by rwa [leBytes_length])

end Stores

section Loads
variable {loadU loadI : Instr} {n : Nat} {o : Byte}
  (opsU : loadOperands loadU = some (n, false, o)) (opsI : loadOperands loadI = some (n, true, o))
include opsU opsI

/-- The two loads of a width, where their run leaves the payload area (R191). -/
theorem loads_of_out (s : State) (out : 128 < o.toNat + n) :
    exec loadU s = .next (s.answer .rangeFault 0#32) ∧ exec loadI s = .next (s.answer .rangeFault 0#32) :=
  ⟨(Effect.loadRefused _ n false o opsU out).exec_eq, (Effect.loadRefused _ n true o opsI out).exec_eq⟩

/-- The two loads of a width stop on the lowest unwritten byte of their run (R58). -/
theorem loads_of_unwritten {s : State} {k : Nat} (inside : o.toNat + n ≤ 128) (below : k < n)
    (unwritten : s.byte (3 + o.toNat + k) = none) (lower : ∀ j, j < k → s.byte (3 + o.toNat + j) ≠ none) :
    exec loadU s = .fault (.unwrittenRead (3 + o.toNat + k)) ∧
    exec loadI s = .fault (.unwrittenRead (3 + o.toNat + k)) := by
  have stop := Memory.readRun_eq_error.2 ⟨k, below, rfl, unwritten, lower⟩
  rw [exec_load opsU, exec_load opsI]
  exact ⟨load_fault.2 ⟨inside, stop⟩, load_fault.2 ⟨inside, stop⟩⟩

/-- The two loads of a width return the value `w` of the bytes the buffer holds, extended each in its way (R55, R72). -/
theorem loads_of_holds {s : State} {bs : List Byte} {w : BitVec (8 * n)} (len : bs.length = n)
    (value : leValue (8 * n) bs = w) (inside : o.toNat + n ≤ 128) (held : s.holds (3 + o.toNat) bs) :
    exec loadU s = .next (s.answer .ok (w.zeroExtend 32)) ∧ exec loadI s = .next (s.answer .ok (w.signExtend 32)) := by
  subst len value
  rw [exec_load opsU, exec_load opsI]
  exact ⟨load_of_holds false inside held, load_of_holds true inside held⟩

end Loads

/-- The loads of a width after a store of the same width and offset return the low bits stored, extended (R204). -/
theorem loads_of_store {storeU storeI loadU loadI : Instr} {n : Nat} {o : Byte} {v : Word} {s t u : State}
    (opsSU : storeOperands storeU = some (n, o, v)) (opsSI : storeOperands storeI = some (n, o, v))
    (opsLU : loadOperands loadU = some (n, false, o)) (opsLI : loadOperands loadI = some (n, true, o))
    (inside : o.toNat + n ≤ 128) (completed : exec storeU s = .next t ∨ exec storeI s = .next t)
    (same : t.sameBytes u (3 + o.toNat) n) :
    exec loadU u = .next (u.answer .ok ((v.setWidth (8 * n)).zeroExtend 32)) ∧
    exec loadI u = .next (u.answer .ok ((v.setWidth (8 * n)).signExtend 32)) :=
  loads_of_holds opsLU opsLI (leBytes_length n v) (leValue_leBytes n v) inside
    (holds_of_store opsSU opsSI inside completed same)

end Sys2Proof.Machine

section
open Sys2Proof Sys2Proof.Machine

/-- Settles O49: the value of two held bytes is `PB[o+1] ++ PB[o]`, whose top bit is bit 7 of `PB[o+1]`. -/
theorem halfWordLoads : Obligations.HalfWordLoads :=
  fun s _ => ⟨rfl, rfl, loads_of_out rfl rfl s, fun _ => loads_of_unwritten rfl rfl,
    fun b₀ b₁ => loads_of_holds rfl rfl rfl (leValue_two b₀ b₁)⟩

/-- Settles O50: the value of four held bytes fills the word, so extending it changes nothing. -/
theorem wordLoads : Obligations.WordLoads := by
  refine fun s o => ⟨rfl, rfl, loads_of_out rfl rfl s, fun _ => loads_of_unwritten rfl rfl,
    fun b₀ b₁ b₂ b₃ inside held => ?_⟩
  have extended := loads_of_holds (loadU := .ldU32 o) (loadI := .ldI32 o) rfl rfl rfl (leValue_four b₀ b₁ b₂ b₃) inside held
  rwa [BitVec.zeroExtend_eq_setWidth, BitVec.setWidth_eq, BitVec.signExtend_eq] at extended

/-- Settles O51: both stores write the one byte `v[7:0]`. -/
theorem byteStores : Obligations.ByteStores := by
  intro s o v
  have bytes : leBytes 1 v = [v.extractLsb' 0 8] := leBytes_eq_map 1 v
  exact ⟨rfl, rfl, stores_of_out rfl rfl s, stores_of_inside rfl rfl bytes s⟩

/-- Settles O52: both stores write `v[7:0]` and `v[15:8]`. -/
theorem halfWordStores : Obligations.HalfWordStores := by
  intro s o v
  have bytes : leBytes 2 v = [v.extractLsb' 0 8, v.extractLsb' 8 8] := leBytes_eq_map 2 v
  exact ⟨rfl, rfl, stores_of_out rfl rfl s, stores_of_inside rfl rfl bytes s⟩

/-- Settles O53: both stores write all four bytes of `v`, or none. -/
theorem wordStores : Obligations.WordStores := by
  intro s o v
  have bytes : leBytes 4 v = [v.extractLsb' 0 8, v.extractLsb' 8 8, v.extractLsb' 16 8, v.extractLsb' 24 8] :=
    leBytes_eq_map 4 v
  exact ⟨rfl, rfl, stores_of_out rfl rfl s, stores_of_inside rfl rfl bytes s⟩

/-- Settles O54: one argument for the three widths; at width 4 the low bits of `v` are all of `v`. -/
theorem storeThenLoad : Obligations.StoreThenLoad := by
  refine fun s t u o v => ⟨loads_of_store rfl rfl rfl rfl, loads_of_store rfl rfl rfl rfl,
    fun inside completed same => ?_⟩
  have loaded := loads_of_store (loadU := .ldU32 o) (loadI := .ldI32 o) rfl rfl rfl rfl inside completed same
  simpa using loaded

/-- Settles O48: a byte load's run is the byte `PB[o]` alone. -/
theorem byteLoads : Obligations.ByteLoads := by
  refine fun s o => ⟨rfl, rfl, loads_of_out rfl rfl s, fun inside unwritten => ?_, fun b inside written => ?_⟩
  · exact loads_of_unwritten rfl rfl inside Nat.one_pos unwritten fun j lower => absurd lower (Nat.not_lt_zero j)
  · exact loads_of_holds (n := 1) rfl rfl rfl (leValue_one b) inside (holds_cons.2 ⟨written, holds_nil _ _⟩)

end

namespace Sys2Proof.Machine

/-! ### Errors change nothing but the ports -/

/-- The four statuses that report an error: ENCODE_ERROR, VERSION_ERROR, RANGE_FAULT and ILLEGAL_CMD (R211, R217). -/
def Status.isError (st : Status) : Prop :=
  st = .encodeError ∨ st = .versionError ∨ st = .rangeFault ∨ st = .illegalCmd

theorem not_isError_ok : ¬ Status.ok.isError := by simp [Status.isError]

/-- RXB reports how a frame goes, never an error (R122, R128). -/
theorem rxbResponse_not_isError (poly : Half) (b : Byte) (s : State) : ¬ (rxbResponse poly b s).status.isError := by
  unfold rxbResponse crcGate
  split_ifs <;> simp [Status.isError, incompleteResponse]

/-- A command that answers an error does only that: it answers with the value 0 (R211, R217). -/
theorem Effect.eq_answer_of_isError {s t : State} {i : Instr} {r : Response} (h : Effect s i t)
    (added : t.responses = s.responses ++ [r]) (error : r.status.isError) : t = s.answer r.status 0#32 := by
  cases h
  case rxb b _ =>
    rw [received_responses_eq] at added
    cases List.append_cancel_left added
    exact absurd error (rxbResponse_not_isError _ b s)
  all_goals cases List.append_cancel_left added
  case encRefused | hdrRejected | loadRefused | storeRefused | frdRefused => rfl
  all_goals exact absurd error not_isError_ok

/-- A step that answers an error takes the oldest word and answers with the value 0; an idle step adds no record (R211, R217). -/
theorem step_eq_answer_of_isError {s t : State} {r : Response} (h : step s = .next t)
    (added : t.responses = s.responses ++ [r]) (error : r.status.isError) :
    ∃ rest, t = State.answer { s with pending := rest } r.status 0#32 := by
  rcases step_next h with rfl | ⟨c, rest, -, ⟨-, rfl⟩ | ⟨i, -, done⟩⟩
  · simp at added
  · cases List.append_cancel_left added
    exact ⟨rest, rfl⟩
  · exact ⟨rest, (effect_of_exec done).eq_answer_of_isError added error⟩

end Sys2Proof.Machine

section
open Sys2Proof Sys2Proof.Machine

/-- Settles O21: the step does nothing but take the oldest word and answer, so the record added is that answer's. -/
theorem errorsArePrecise : Obligations.ErrorsArePrecise := by
  intro s t r h added error
  obtain ⟨rest, eq⟩ := step_eq_answer_of_isError h added error
  subst eq
  have record : [⟨r.status, 0#32, Header.zero⟩] = [r] := List.append_cancel_left added
  rw [← List.singleton_inj.1 record]
  exact ⟨rfl, rfl, rfl⟩

end
